-- ==== Sys2Proof/Word.lean ====
section
/-! DEFINITION. The bit-vector types of the hardware: bytes, 16-bit words, nibbles and 12-bit addresses
(00_scope.md R5, R8; 30_encoding.md R71). -/

namespace Sys2Proof

/-- A general register, a memory byte, a timer, the immediate `kk` (00_scope.md R5, `XLEN` = 8). -/
abbrev Byte := BitVec 8

/-- `pc`, `I`, a return address, an opcode (00_scope.md R5). -/
abbrev Word := BitVec 16

/-- A 4-bit operand field (30_encoding.md R71). -/
abbrev Nibble := BitVec 4

/-- The index of a general register, fields `x` and `y`: every value is a valid index (30_encoding.md R73). -/
abbrev RegIdx := BitVec 4

/-- The 12-bit address field `nnn` (30_encoding.md R71). -/
abbrev Addr12 := BitVec 12

end Sys2Proof
end

