-- ==== Sys2Proof/Config.lean ====
section
/-! DEFINITION. What is fixed for a machine and not changed by an instruction: the constants of 00_scope.md R5,
the quirk parameters of R6, and the free random bytes of R7. -/

namespace Sys2Proof

/-- Bytes of memory (00_scope.md R5). -/
abbrev Config.memSize : Nat := 4096

/-- Bytes of the built-in font, stored from address 0 (00_scope.md R5). -/
abbrev Config.fontSize : Nat := 80

/-- Bytes of one glyph of the font (00_scope.md R5). -/
abbrev Config.glyphBytes : Nat := 5

/-- Load address of the ROM image and reset value of `pc` (00_scope.md R5). -/
abbrev Config.progBase : Nat := 512

/-- The largest ROM image (00_scope.md R5, 70_reset_and_hazards.md R191). -/
abbrev Config.romMax : Nat := 3584

/-- Return-address slots (00_scope.md R5). -/
abbrev Config.stackDepth : Nat := 16

/-- QUIRK_SHIFT_SOURCE: which register `8xy6` and `8xyE` read (00_scope.md R6). -/
inductive ShiftSource
  | vx
  | vy
  deriving DecidableEq, Repr

/-- QUIRK_INDEX_ADVANCE: whether `Fx55` and `Fx65` add `x + 1` to `I` (00_scope.md R6; the value NONE is `unchanged`). -/
inductive IndexAdvance
  | unchanged
  | advance
  deriving DecidableEq, Repr

/-- QUIRK_DRAW_EDGE: what `Dxyn` does with a pixel beyond column 63 or row 31 (00_scope.md R6). -/
inductive DrawEdge
  | clip
  | wrap
  deriving DecidableEq, Repr

/-- QUIRK_VF_ORDER: which write wins when the destination of a flag-writing ALU instruction is VF (00_scope.md R6). -/
inductive VfOrder
  | flagLast
  | resultLast
  deriving DecidableEq, Repr

/-- The quirk profile, fixed by RESET (00_scope.md R6). -/
structure Quirks where
  shiftSource  : ShiftSource
  indexAdvance : IndexAdvance
  drawEdge     : DrawEdge
  vfOrder      : VfOrder
  deriving DecidableEq, Repr

/-- The defaults the spec itself chooses (00_scope.md R6; 92_eei_decisions.md D2 to D5).
DESIGN CHOICE of the spec, unsafe where a claim leans on one profile (log entry 3). -/
def Quirks.default : Quirks := ⟨.vx, .unchanged, .clip, .flagLast⟩

/-- The free random bytes: the `k`-th byte that no host injected (40_step_cycle.md R95, 42_alu.md R121).
It has no value that a proof could use: "No law relates successive draws" (log entry 5). -/
opaque Config.randomByte : Nat → Byte

end Sys2Proof
end

