-- ==== Sys2Proof/Syntax.lean ====
section
/-! DEFINITION. The 34 instructions, one constructor for each row of the opcode map (30_encoding.md R75), each with the
operand fields that row uses (R71, R72). -/

namespace Sys2Proof

/-- A decoded instruction (30_encoding.md R75). Operand fields keep the width R71 gives them. -/
inductive Instr
  /-- `00E0` CLS (44_display.md R140) -/
  | cls
  /-- `00EE` RET (41_control_flow.md R100) -/
  | ret
  /-- `1nnn` JP nnn (41_control_flow.md R101) -/
  | jp (nnn : Addr12)
  /-- `2nnn` CALL nnn (41_control_flow.md R102) -/
  | call (nnn : Addr12)
  /-- `3xkk` SE Vx, kk (41_control_flow.md R103) -/
  | seImm (x : RegIdx) (kk : Byte)
  /-- `4xkk` SNE Vx, kk (41_control_flow.md R104) -/
  | sneImm (x : RegIdx) (kk : Byte)
  /-- `5xy0` SE Vx, Vy (41_control_flow.md R105) -/
  | seReg (x y : RegIdx)
  /-- `6xkk` LD Vx, kk (42_alu.md R110) -/
  | ldImm (x : RegIdx) (kk : Byte)
  /-- `7xkk` ADD Vx, kk (42_alu.md R111) -/
  | addImm (x : RegIdx) (kk : Byte)
  /-- `8xy0` LD Vx, Vy (42_alu.md R112) -/
  | ldReg (x y : RegIdx)
  /-- `8xy1` OR Vx, Vy (42_alu.md R113) -/
  | orReg (x y : RegIdx)
  /-- `8xy2` AND Vx, Vy (42_alu.md R114) -/
  | andReg (x y : RegIdx)
  /-- `8xy3` XOR Vx, Vy (42_alu.md R115) -/
  | xorReg (x y : RegIdx)
  /-- `8xy4` ADD Vx, Vy (42_alu.md R116) -/
  | addReg (x y : RegIdx)
  /-- `8xy5` SUB Vx, Vy (42_alu.md R117) -/
  | subReg (x y : RegIdx)
  /-- `8xy6` SHR Vx, Vy (42_alu.md R118) -/
  | shr (x y : RegIdx)
  /-- `8xy7` SUBN Vx, Vy (42_alu.md R119) -/
  | subn (x y : RegIdx)
  /-- `8xyE` SHL Vx, Vy (42_alu.md R120) -/
  | shl (x y : RegIdx)
  /-- `9xy0` SNE Vx, Vy (41_control_flow.md R106) -/
  | sneReg (x y : RegIdx)
  /-- `Annn` LD I, nnn (43_index_memory.md R130) -/
  | ldI (nnn : Addr12)
  /-- `Bnnn` JP V0, nnn (41_control_flow.md R107) -/
  | jpV0 (nnn : Addr12)
  /-- `Cxkk` RND Vx, kk (42_alu.md R121) -/
  | rnd (x : RegIdx) (kk : Byte)
  /-- `Dxyn` DRW Vx, Vy, n (44_display.md R141) -/
  | drw (x y : RegIdx) (n : Nibble)
  /-- `Ex9E` SKP Vx (45_keypad_timers.md R150) -/
  | skp (x : RegIdx)
  /-- `ExA1` SKNP Vx (45_keypad_timers.md R151) -/
  | sknp (x : RegIdx)
  /-- `Fx07` LD Vx, DT (45_keypad_timers.md R152) -/
  | ldVxDT (x : RegIdx)
  /-- `Fx0A` LD Vx, K (45_keypad_timers.md R153) -/
  | ldVxK (x : RegIdx)
  /-- `Fx15` LD DT, Vx (45_keypad_timers.md R154) -/
  | ldDTVx (x : RegIdx)
  /-- `Fx18` LD ST, Vx (45_keypad_timers.md R155) -/
  | ldSTVx (x : RegIdx)
  /-- `Fx1E` ADD I, Vx (43_index_memory.md R131) -/
  | addI (x : RegIdx)
  /-- `Fx29` LD F, Vx (43_index_memory.md R132) -/
  | ldF (x : RegIdx)
  /-- `Fx33` LD B, Vx (43_index_memory.md R133) -/
  | ldB (x : RegIdx)
  /-- `Fx55` LD [I], Vx (43_index_memory.md R134) -/
  | storeRegs (x : RegIdx)
  /-- `Fx65` LD Vx, [I] (43_index_memory.md R135) -/
  | loadRegs (x : RegIdx)
  deriving DecidableEq, Repr

end Sys2Proof
end

