-- ==== Sys2Proof/WellFormed.lean ====
section
/-! DEFINITION. What the model admits from outside: an instruction, a word as an assembler spells it, a ROM image. -/

namespace Sys2Proof

/-- Every term of `Instr` is a legal instruction: each operand field has the width of 30_encoding.md R71 in its type, and R73
makes every value of a field legal, so there is nothing left to check. -/
def Instr.wellFormed (_ : Instr) : Bool := true

/-- The canonical spelling of a word: `5xyn` and `9xyn` have `n` = 0, the spelling an assembler emits (30_encoding.md R77).
The decoder accepts the other spellings too; nothing is refused by this check. -/
def canonicalWord (w : Word) : Bool :=
  decide ((w &&& 0xF000#16 = 0x5000#16 ∨ w &&& 0xF000#16 = 0x9000#16) → w &&& 0x000F#16 = 0#16)

/-- The ROM images RESET is defined for: 0 to 3584 bytes (70_reset_and_hazards.md R191). -/
def romWellFormed (rom : List Byte) : Bool := decide (rom.length ≤ Config.romMax)

end Sys2Proof
end

