-- ==== Sys2Proof/Decode.lean ====
section
/-! DEFINITION. The decoder, total and pure on every word (30_encoding.md R74), the opcode map (R75) and the canonical
encoder (R83). Bits are numbered as R8 and R71 number them: bit 15 is the most significant. -/

namespace Sys2Proof

/-! ### Fields (30_encoding.md R71) -/

/-- The family nibble, bits 15:12. -/
def opField (w : Word) : Nibble := w.extractLsb' 12 4

/-- Field `x`, bits 11:8. -/
def xField (w : Word) : RegIdx := w.extractLsb' 8 4

/-- Field `y`, bits 7:4. -/
def yField (w : Word) : RegIdx := w.extractLsb' 4 4

/-- Field `n`, bits 3:0. -/
def nField (w : Word) : Nibble := w.extractLsb' 0 4

/-- Field `kk`, bits 7:0. -/
def kkField (w : Word) : Byte := w.extractLsb' 0 8

/-- Field `nnn`, bits 11:0. -/
def nnnField (w : Word) : Addr12 := w.extractLsb' 0 12

/-! ### Decoding (30_encoding.md R74) -/

/-- Family 0x8 dispatches on `n` (30_encoding.md R74). -/
def decodeAlu (w : Word) : Option Instr :=
  match nField w with
  | 0x0#4 => some (.ldReg (xField w) (yField w))
  | 0x1#4 => some (.orReg (xField w) (yField w))
  | 0x2#4 => some (.andReg (xField w) (yField w))
  | 0x3#4 => some (.xorReg (xField w) (yField w))
  | 0x4#4 => some (.addReg (xField w) (yField w))
  | 0x5#4 => some (.subReg (xField w) (yField w))
  | 0x6#4 => some (.shr (xField w) (yField w))
  | 0x7#4 => some (.subn (xField w) (yField w))
  | 0xE#4 => some (.shl (xField w) (yField w))
  | _ => none

/-- Family 0xE dispatches on `kk` (30_encoding.md R74). -/
def decodeKey (w : Word) : Option Instr :=
  match kkField w with
  | 0x9E#8 => some (.skp (xField w))
  | 0xA1#8 => some (.sknp (xField w))
  | _ => none

/-- Family 0xF dispatches on `kk` (30_encoding.md R74, R75). -/
def decodeMisc (w : Word) : Option Instr :=
  match kkField w with
  | 0x07#8 => some (.ldVxDT (xField w))
  | 0x0A#8 => some (.ldVxK (xField w))
  | 0x15#8 => some (.ldDTVx (xField w))
  | 0x18#8 => some (.ldSTVx (xField w))
  | 0x1E#8 => some (.addI (xField w))
  | 0x29#8 => some (.ldF (xField w))
  | 0x33#8 => some (.ldB (xField w))
  | 0x55#8 => some (.storeRegs (xField w))
  | 0x65#8 => some (.loadRegs (xField w))
  | _ => none

/-- The decode function of 30_encoding.md R74: one of the 34 instructions, or `none`, the spec's `Unknown`.
Family 0x0 is matched on all 16 bits (R76); the low nibble of `5xyn` and `9xyn` is not examined (R77). -/
def decodeWord (w : Word) : Option Instr :=
  match opField w with
  | 0x0#4 => if w = 0x00E0#16 then some .cls else if w = 0x00EE#16 then some .ret else none
  | 0x1#4 => some (.jp (nnnField w))
  | 0x2#4 => some (.call (nnnField w))
  | 0x3#4 => some (.seImm (xField w) (kkField w))
  | 0x4#4 => some (.sneImm (xField w) (kkField w))
  | 0x5#4 => some (.seReg (xField w) (yField w))
  | 0x6#4 => some (.ldImm (xField w) (kkField w))
  | 0x7#4 => some (.addImm (xField w) (kkField w))
  | 0x8#4 => decodeAlu w
  | 0x9#4 => some (.sneReg (xField w) (yField w))
  | 0xA#4 => some (.ldI (nnnField w))
  | 0xB#4 => some (.jpV0 (nnnField w))
  | 0xC#4 => some (.rnd (xField w) (kkField w))
  | 0xD#4 => some (.drw (xField w) (yField w) (nField w))
  | 0xE#4 => decodeKey w
  | 0xF#4 => decodeMisc w
  | _ => none

/-! ### Bytes (20_memory.md R52) -/

/-- The word of two bytes: the byte at the lower address is the high byte (20_memory.md R52). -/
def wordOfBytes (hi lo : Byte) : Word := hi ++ lo

/-- The two bytes of a word, in ascending address order (20_memory.md R52). -/
def bytesOfWord (w : Word) : List Byte := [w.extractLsb' 8 8, w.extractLsb' 0 8]

/-- What decoding a byte string gives: an instruction, or a rejection by name. -/
inductive DecodeResult
  /-- one of the 34 instructions -/
  | instr (i : Instr)
  /-- the word is one of the 13902 words that are no instruction (30_encoding.md R78) -/
  | unknownOpcode (w : Word)
  /-- fewer than the two bytes that every instruction has (30_encoding.md R70) -/
  | truncated
  deriving DecidableEq, Repr

/-- Decoding of the first two bytes of any byte string (30_encoding.md R70, R74). -/
def decodeBytes : List Byte → DecodeResult
  | hi :: lo :: _ =>
    match decodeWord (wordOfBytes hi lo) with
    | some i => .instr i
    | none => .unknownOpcode (wordOfBytes hi lo)
  | _ => .truncated

/-! ### Encoding (30_encoding.md R72, R75, R83) -/

/-- A word from its four nibbles, most significant first (30_encoding.md R72). -/
def ofNibbles (n3 n2 n1 n0 : Nibble) : Word := n3 ++ n2 ++ n1 ++ n0

/-- Format NNN (30_encoding.md R72). -/
def encodeNNN (op : Nibble) (nnn : Addr12) : Word :=
  ofNibbles op (nnn.extractLsb' 8 4) (nnn.extractLsb' 4 4) (nnn.extractLsb' 0 4)

/-- Format XKK (30_encoding.md R72); format X is the same with `kk` fixed. -/
def encodeXKK (op : Nibble) (x : RegIdx) (kk : Byte) : Word :=
  ofNibbles op x (kk.extractLsb' 4 4) (kk.extractLsb' 0 4)

/-- The canonical encoder: fields placed by R71, fixed nibbles by R75, `n` = 0 for `5xy0` and `9xy0` (30_encoding.md R83). -/
def encode : Instr → Word
  | .cls => 0x00E0#16
  | .ret => 0x00EE#16
  | .jp nnn => encodeNNN 0x1#4 nnn
  | .call nnn => encodeNNN 0x2#4 nnn
  | .seImm x kk => encodeXKK 0x3#4 x kk
  | .sneImm x kk => encodeXKK 0x4#4 x kk
  | .seReg x y => ofNibbles 0x5#4 x y 0x0#4
  | .ldImm x kk => encodeXKK 0x6#4 x kk
  | .addImm x kk => encodeXKK 0x7#4 x kk
  | .ldReg x y => ofNibbles 0x8#4 x y 0x0#4
  | .orReg x y => ofNibbles 0x8#4 x y 0x1#4
  | .andReg x y => ofNibbles 0x8#4 x y 0x2#4
  | .xorReg x y => ofNibbles 0x8#4 x y 0x3#4
  | .addReg x y => ofNibbles 0x8#4 x y 0x4#4
  | .subReg x y => ofNibbles 0x8#4 x y 0x5#4
  | .shr x y => ofNibbles 0x8#4 x y 0x6#4
  | .subn x y => ofNibbles 0x8#4 x y 0x7#4
  | .shl x y => ofNibbles 0x8#4 x y 0xE#4
  | .sneReg x y => ofNibbles 0x9#4 x y 0x0#4
  | .ldI nnn => encodeNNN 0xA#4 nnn
  | .jpV0 nnn => encodeNNN 0xB#4 nnn
  | .rnd x kk => encodeXKK 0xC#4 x kk
  | .drw x y n => ofNibbles 0xD#4 x y n
  | .skp x => encodeXKK 0xE#4 x 0x9E#8
  | .sknp x => encodeXKK 0xE#4 x 0xA1#8
  | .ldVxDT x => encodeXKK 0xF#4 x 0x07#8
  | .ldVxK x => encodeXKK 0xF#4 x 0x0A#8
  | .ldDTVx x => encodeXKK 0xF#4 x 0x15#8
  | .ldSTVx x => encodeXKK 0xF#4 x 0x18#8
  | .addI x => encodeXKK 0xF#4 x 0x1E#8
  | .ldF x => encodeXKK 0xF#4 x 0x29#8
  | .ldB x => encodeXKK 0xF#4 x 0x33#8
  | .storeRegs x => encodeXKK 0xF#4 x 0x55#8
  | .loadRegs x => encodeXKK 0xF#4 x 0x65#8

/-! ### The opcode map (30_encoding.md R75) -/

/-- A row of the opcode map: a word `w` selects it when `w &&& mask = pattern` (30_encoding.md R75). -/
structure OpcodeRow where
  mnemonic : String
  pattern  : Word
  mask     : Word
  deriving DecidableEq, Repr

/-- Whether a word selects a row. -/
def OpcodeRow.selects (r : OpcodeRow) (w : Word) : Bool := decide (w &&& r.mask = r.pattern)

/-- The row of each instruction (30_encoding.md R75; mnemonics as spec/opcode_table.json spells them). -/
def Instr.row : Instr → OpcodeRow
  | .cls => ⟨"CLS", 0x00E0#16, 0xFFFF#16⟩
  | .ret => ⟨"RET", 0x00EE#16, 0xFFFF#16⟩
  | .jp _ => ⟨"JP_nnn", 0x1000#16, 0xF000#16⟩
  | .call _ => ⟨"CALL_nnn", 0x2000#16, 0xF000#16⟩
  | .seImm _ _ => ⟨"SE_Vx__kk", 0x3000#16, 0xF000#16⟩
  | .sneImm _ _ => ⟨"SNE_Vx__kk", 0x4000#16, 0xF000#16⟩
  | .seReg _ _ => ⟨"SE_Vx__Vy", 0x5000#16, 0xF000#16⟩
  | .ldImm _ _ => ⟨"LD_Vx__kk", 0x6000#16, 0xF000#16⟩
  | .addImm _ _ => ⟨"ADD_Vx__kk", 0x7000#16, 0xF000#16⟩
  | .ldReg _ _ => ⟨"LD_Vx__Vy", 0x8000#16, 0xF00F#16⟩
  | .orReg _ _ => ⟨"OR_Vx__Vy", 0x8001#16, 0xF00F#16⟩
  | .andReg _ _ => ⟨"AND_Vx__Vy", 0x8002#16, 0xF00F#16⟩
  | .xorReg _ _ => ⟨"XOR_Vx__Vy", 0x8003#16, 0xF00F#16⟩
  | .addReg _ _ => ⟨"ADD_Vx__Vy", 0x8004#16, 0xF00F#16⟩
  | .subReg _ _ => ⟨"SUB_Vx__Vy", 0x8005#16, 0xF00F#16⟩
  | .shr _ _ => ⟨"SHR_Vx__Vy", 0x8006#16, 0xF00F#16⟩
  | .subn _ _ => ⟨"SUBN_Vx__Vy", 0x8007#16, 0xF00F#16⟩
  | .shl _ _ => ⟨"SHL_Vx__Vy", 0x800E#16, 0xF00F#16⟩
  | .sneReg _ _ => ⟨"SNE_Vx__Vy", 0x9000#16, 0xF000#16⟩
  | .ldI _ => ⟨"LD_I__nnn", 0xA000#16, 0xF000#16⟩
  | .jpV0 _ => ⟨"JP_V0__nnn", 0xB000#16, 0xF000#16⟩
  | .rnd _ _ => ⟨"RND_Vx__kk", 0xC000#16, 0xF000#16⟩
  | .drw _ _ _ => ⟨"DRW_Vx__Vy__n", 0xD000#16, 0xF000#16⟩
  | .skp _ => ⟨"SKP_Vx", 0xE09E#16, 0xF0FF#16⟩
  | .sknp _ => ⟨"SKNP_Vx", 0xE0A1#16, 0xF0FF#16⟩
  | .ldVxDT _ => ⟨"LD_Vx__DT", 0xF007#16, 0xF0FF#16⟩
  | .ldVxK _ => ⟨"LD_Vx__K", 0xF00A#16, 0xF0FF#16⟩
  | .ldDTVx _ => ⟨"LD_DT__Vx", 0xF015#16, 0xF0FF#16⟩
  | .ldSTVx _ => ⟨"LD_ST__Vx", 0xF018#16, 0xF0FF#16⟩
  | .addI _ => ⟨"ADD_I__Vx", 0xF01E#16, 0xF0FF#16⟩
  | .ldF _ => ⟨"LD_F__Vx", 0xF029#16, 0xF0FF#16⟩
  | .ldB _ => ⟨"LD_B__Vx", 0xF033#16, 0xF0FF#16⟩
  | .storeRegs _ => ⟨"LD__I___Vx", 0xF055#16, 0xF0FF#16⟩
  | .loadRegs _ => ⟨"LD_Vx___I", 0xF065#16, 0xF0FF#16⟩

/-- The 34 rows of the opcode map (30_encoding.md R75), the rows of the instructions with every operand 0. -/
def opcodeTable : List OpcodeRow :=
  ([.cls, .ret, .jp 0, .call 0, .seImm 0 0, .sneImm 0 0, .seReg 0 0, .ldImm 0 0, .addImm 0 0] : List Instr).map Instr.row ++
  ([.ldReg 0 0, .orReg 0 0, .andReg 0 0, .xorReg 0 0, .addReg 0 0, .subReg 0 0, .shr 0 0, .subn 0 0, .shl 0 0] : List Instr).map Instr.row ++
  ([.sneReg 0 0, .ldI 0, .jpV0 0, .rnd 0 0, .drw 0 0 0, .skp 0, .sknp 0] : List Instr).map Instr.row ++
  ([.ldVxDT 0, .ldVxK 0, .ldDTVx 0, .ldSTVx 0, .addI 0, .ldF 0, .ldB 0, .storeRegs 0, .loadRegs 0] : List Instr).map Instr.row

/-! ### The host's probe -/

/-- The word of a table row's bits: `nbits` bits of `w`, every bit above them 0. -/
def tableWord (nbits w : Nat) : Word := BitVec.ofNat 16 (w % 2 ^ nbits)

/-- The instruction the decoder reads from the two bytes of a table word, laid out as 20_memory.md R52 stores them. -/
def decodeTableWord (nbits w : Nat) : Option Instr :=
  match decodeBytes (bytesOfWord (tableWord nbits w)) with
  | .instr i => some i
  | .unknownOpcode _ => none
  | .truncated => none

end Sys2Proof
end

