-- ==== Sys2Proof/Machine/State.lean ====
section
/-! DEFINITION. The machine state (10_state.md R20), the reasons a step can stop, and the state after reset (R34). -/

namespace Sys2Proof.Machine

/-- The five fatal conditions (60_exceptions.md R160). -/
inductive FatalKind
  /-- the fetched word is no instruction (60_exceptions.md R161) -/
  | unknownOpcode
  /-- a call with all 16 slots in use (60_exceptions.md R162) -/
  | stackOverflow
  /-- a return with an empty stack (60_exceptions.md R163) -/
  | stackUnderflow
  /-- a data access past 4095, or a fetch at `pc` > 4094 (60_exceptions.md R164) -/
  | memoryOutOfBounds
  /-- a key skip with `V[x]` > 15 (60_exceptions.md R165) -/
  | keyIndexOutOfRange
  deriving DecidableEq, Repr

/-- The error record: the kind, the offending opcode (absent for a fetch out of bounds) and the address of the offending
instruction (60_exceptions.md R167). -/
structure ErrorRecord where
  kind   : FatalKind
  opcode : Option Word
  pc     : Word
  deriving DecidableEq, Repr

/-- The run status; `err` is meaningful only in HALTED, so HALTED carries it (10_state.md R30). -/
inductive Status
  | running
  | blocked
  | halted (err : ErrorRecord)
  deriving DecidableEq, Repr

/-- Memory as the bytes that differ from their reset contents, at strictly rising addresses: the canonical form is
`Memory.wf`, and what an unlisted address reads as is `Memory.unlisted` (Machine/Memory.lean; 20_memory.md R50, R51). -/
abbrev Memory := List Host.Cell

/-- The framebuffer: 32 rows of 64 cells (10_state.md R27). -/
abbrev Framebuffer := Vector (Vector Bool 64) 32

/-- The machine state (10_state.md R20), and three fields of the model's own: the quirk profile latched by RESET (log entry
3), the injected random bytes and the number of free draws (log entry 5). -/
structure State where
  /-- `V[0]`..`V[15]`, VF is `V[15]` (10_state.md R21, R22) -/
  v      : Vector Byte 16
  /-- the index register `I` (10_state.md R24) -/
  i      : Word
  /-- the program counter (10_state.md R23) -/
  pc     : Word
  /-- the return-address slots (10_state.md R25) -/
  stack  : Vector Word 16
  /-- the index of the next free slot, 0 to 16 (10_state.md R25) -/
  sp     : Fin 17
  /-- the delay timer `DT` (10_state.md R26) -/
  dt     : Byte
  /-- the sound timer `ST` (10_state.md R26) -/
  st     : Byte
  /-- the 4096 bytes of memory (10_state.md R31) -/
  mem    : Memory
  /-- the framebuffer (10_state.md R27) -/
  fb     : Framebuffer
  /-- the keypad, true is pressed (10_state.md R28) -/
  keypad : Vector Bool 16
  /-- `wait_for_key` (10_state.md R29) -/
  wait   : Option RegIdx
  /-- `status` and, in HALTED, `err` (10_state.md R30) -/
  status : Status
  /-- the quirk profile, fixed at reset (00_scope.md R6) -/
  quirks : Quirks
  /-- random bytes the host injected and no `Cxkk` has drawn, oldest first (40_step_cycle.md R95) -/
  randIn : List Byte
  /-- how many free random bytes have been drawn (42_alu.md R121) -/
  draws  : Nat
  deriving DecidableEq, Repr

/-- The reasons a step can stop with no next state: none. A fatal condition has an entry that the spec describes
(60_exceptions.md R167), so the model takes it: the next state is HALTED with the error record (log entry 1). Nobody raises a
`Fault`; safe, since HALTED keeps every fatal condition visible in the state. -/
inductive Fault
  deriving DecidableEq, Repr

/-- What the model refuses. -/
inductive Refusal
  /-- an arm of `exec` that has no meaning yet, by its mnemonic: no arm raises it. Safe. -/
  | notModelled (mnemonic : String)
  /-- raised by the event RESET for a ROM image longer than 3584 bytes, for which RESET is undefined
  (70_reset_and_hazards.md R191). Safe: the engine never starts. -/
  | romTooLarge
  deriving DecidableEq, Repr

/-- The outcome of a step, a meaning or an event. -/
abbrev Outcome := Host.Outcome State Fault Refusal

/-- The state after RESET with the default profile, the default font and an empty ROM image (10_state.md R34): memory lists
nothing, since an unlisted address reads as its reset contents. `quirks`, `randIn` and `draws` are DESIGN CHOICE (log entries
3 and 5). -/
def State.reset : State where
  v := .replicate 16 0
  i := 0
  pc := BitVec.ofNat 16 Config.progBase
  stack := .replicate 16 0
  sp := 0
  dt := 0
  st := 0
  mem := []
  fb := .replicate 32 (.replicate 64 false)
  keypad := .replicate 16 false
  wait := none
  status := .running
  quirks := Quirks.default
  randIn := []
  draws := 0

end Sys2Proof.Machine
end

