-- ==== Sys2Proof/Machine/Memory.lean ====
section
/-! DEFINITION. The 4096 bytes of memory as a canonical list (20_memory.md R50, R51), and the primitives MemRead and MemWrite
(R58) over it. -/

namespace Sys2Proof.Machine

/-- The default font, 16 glyphs of 5 bytes (70_reset_and_hazards.md R192).
PRESUMED: the source gives the size and the place only; the bytes are the standard table, unsafe (log entry 4). -/
def defaultFont : Vector Byte 80 :=
  #v[0xF0#8, 0x90#8, 0x90#8, 0x90#8, 0xF0#8,
     0x20#8, 0x60#8, 0x20#8, 0x20#8, 0x70#8,
     0xF0#8, 0x10#8, 0xF0#8, 0x80#8, 0xF0#8,
     0xF0#8, 0x10#8, 0xF0#8, 0x10#8, 0xF0#8] ++
  #v[0x90#8, 0x90#8, 0xF0#8, 0x10#8, 0x10#8,
     0xF0#8, 0x80#8, 0xF0#8, 0x10#8, 0xF0#8,
     0xF0#8, 0x80#8, 0xF0#8, 0x90#8, 0xF0#8,
     0xF0#8, 0x10#8, 0x20#8, 0x40#8, 0x40#8] ++
  #v[0xF0#8, 0x90#8, 0xF0#8, 0x90#8, 0xF0#8,
     0xF0#8, 0x90#8, 0xF0#8, 0x10#8, 0xF0#8,
     0xF0#8, 0x90#8, 0xF0#8, 0x90#8, 0x90#8,
     0xE0#8, 0x90#8, 0xE0#8, 0x90#8, 0xE0#8] ++
  #v[0xF0#8, 0x80#8, 0x80#8, 0x80#8, 0xF0#8,
     0xE0#8, 0x90#8, 0x90#8, 0x90#8, 0xE0#8,
     0xF0#8, 0x80#8, 0xF0#8, 0x80#8, 0xF0#8,
     0xF0#8, 0x80#8, 0xF0#8, 0x80#8, 0x80#8]

/-- What an address that memory does not list reads as: its contents after a RESET with the default font and an empty ROM
image, the font in 0..79 and 0 everywhere else (10_state.md R34, 20_memory.md R51). -/
def Memory.unlisted (a : Nat) : Byte := if h : a < 80 then defaultFont[a] else 0#8

/-- The byte at an address (20_memory.md R59: reading changes nothing). -/
def Memory.byteAt : Memory → Nat → Byte
  | [], a => Memory.unlisted a
  | c :: m, a => if a = c.1 then c.2 else Memory.byteAt m a

/-- One byte stored, the canonical form kept: a byte equal to what the unlisted address reads as is not listed. -/
def Memory.put : Memory → Nat → Byte → Memory
  | [], a, b => if b = Memory.unlisted a then [] else [(a, b)]
  | c :: m, a, b =>
    if a < c.1 then (if b = Memory.unlisted a then c :: m else (a, b) :: c :: m)
    else if a = c.1 then (if b = Memory.unlisted a then m else (a, b) :: m)
    else c :: Memory.put m a b

/-- The canonical form from an address up: addresses strictly rising, inside the 4096 bytes, and no entry equal to what its
address would read as unlisted. -/
def Memory.wfFrom : Nat → Memory → Bool
  | _, [] => true
  | lo, c :: m => decide (lo ≤ c.1) && decide (c.1 < Config.memSize) && decide (c.2 ≠ Memory.unlisted c.1) && Memory.wfFrom (c.1 + 1) m

/-- The canonical form of memory: equal memories are equal lists. -/
def Memory.wf (m : Memory) : Bool := Memory.wfFrom 0 m

/-- The bound on an access of `n` bytes at `a`: the last byte is at most 4095, with no wrap-around, and an access of no bytes
passes (20_memory.md R55). -/
def Memory.inBounds (a n : Nat) : Bool := decide (n = 0 ∨ a + n - 1 ≤ 4095)

/-- `n` bytes at ascending addresses from `a` (20_memory.md R58). -/
def Memory.bytesFrom (m : Memory) (a : Nat) : Nat → List Byte
  | 0 => []
  | n + 1 => m.byteAt a :: Memory.bytesFrom m (a + 1) n

/-- A list of bytes stored at ascending addresses from `a` (20_memory.md R58). -/
def Memory.putFrom (m : Memory) (a : Nat) : List Byte → Memory
  | [] => m
  | b :: bs => Memory.putFrom (m.put a b) (a + 1) bs

end Sys2Proof.Machine
end

