-- ==== Sys2Proof/Machine/Operands.lean ====
section
/-! DEFINITION. The operand forms: a general register, an immediate, an address, memory through `I`, a key index, the shift
source (30_encoding.md R71, R73; 43_index_memory.md, opening paragraph). -/

namespace Sys2Proof.Machine

/-- The index of VF, general register 15 (10_state.md R21, R22). -/
abbrev vf : RegIdx := 15#4

/-- `V[x]` (00_scope.md R9): every register is readable, and none is hardwired (10_state.md R21). -/
def State.reg (s : State) (x : RegIdx) : Byte := s.v[x.toNat]'(x.isLt)

/-- `V[0]`..`V[x]`, the registers a block transfer stores (43_index_memory.md R134). -/
def State.regsUpTo (s : State) (x : RegIdx) : List Byte := s.v.toList.take (x.toNat + 1)

/-- `nnn` zero-extended to 16 bits (30_encoding.md R73). -/
def addrOperand (nnn : Addr12) : Word := nnn.setWidth 16

/-- A register value zero-extended to 16 bits (41_control_flow.md R107, 43_index_memory.md R131, R132). -/
def zext16 (b : Byte) : Word := b.setWidth 16

/-- The base of an access through `I`: all 16 bits, never reduced (20_memory.md R66). -/
def State.indexBase (s : State) : Nat := s.i.toNat

/-- The register a shift reads, by QUIRK_SHIFT_SOURCE (42_alu.md R118, R120). -/
def State.shiftOperand (s : State) (x y : RegIdx) : Byte :=
  match s.quirks.shiftSource with
  | .vx => s.reg x
  | .vy => s.reg y

/-- A key index, or none for a value above 15: the value is not reduced to its low nibble (45_keypad_timers.md R150). -/
def keyOperand (b : Byte) : Option Nibble := if b.toNat ≤ 15 then some (b.setWidth 4) else none

/-- `keypad[k]` (00_scope.md R9). -/
def State.key (s : State) (k : Nibble) : Bool := s.keypad[k.toNat]'(k.isLt)

/-- The three decimal digits of a byte, hundreds first (43_index_memory.md R133). -/
def bcdDigits (b : Byte) : List Byte :=
  [BitVec.ofNat 8 (b.toNat / 100), BitVec.ofNat 8 (b.toNat / 10 % 10), BitVec.ofNat 8 (b.toNat % 10)]

/-- The address of the glyph of a digit, `V[x] * 5` with no masking (43_index_memory.md R132). -/
def glyphAddress (b : Byte) : Word := BitVec.ofNat 16 (b.toNat * Config.glyphBytes)

end Sys2Proof.Machine
end

