-- ==== Sys2Proof/Machine/Flags.lean ====
section
/-! DEFINITION. The flag computations, each from the operand values before the instruction writes anything (10_state.md R22),
and the two writes of a flag-writing ALU instruction (40_step_cycle.md R97). -/

namespace Sys2Proof.Machine

/-- A flag in all 8 bits of VF: 0x00 or 0x01 (10_state.md R22). -/
def flagByte (b : Bool) : Byte := if b then 1#8 else 0#8

/-- Carry out of `a + b` (42_alu.md R116). -/
def carryFlag (a b : Byte) : Bool := decide (a.toNat + b.toNat > 255)

/-- No borrow in `a - b`: 1 when equal (42_alu.md R117, R119). -/
def noBorrowFlag (a b : Byte) : Bool := decide (a.toNat ≥ b.toNat)

/-- The bit a right shift moves out (42_alu.md R118). -/
def shiftedOutRight (b : Byte) : Bool := b.getLsbD 0

/-- The bit a left shift moves out (42_alu.md R120). -/
def shiftedOutLeft (b : Byte) : Bool := b.getLsbD 7

/-- Write of a general register (00_scope.md R9). -/
def State.setReg (s : State) (x : RegIdx) (b : Byte) : State := { s with v := s.v.set x.toNat b x.isLt }

/-- WriteResultAndFlag: the two register writes in the order QUIRK_VF_ORDER gives (40_step_cycle.md R97). -/
def State.writeResultAndFlag (s : State) (x : RegIdx) (result : Byte) (flag : Bool) : State :=
  match s.quirks.vfOrder with
  | .flagLast => (s.setReg x result).setReg vf (flagByte flag)
  | .resultLast => (s.setReg vf (flagByte flag)).setReg x result

end Sys2Proof.Machine
end

