-- ==== Sys2Proof/Machine/Ops.lean ====
section
/-! DEFINITION. The named operations over the state that the meanings share: the program counter, memory through `I`, the
stack, block register writes, the framebuffer, the key wait, the random byte, and the entry of a fatal condition. -/

namespace Sys2Proof.Machine

/-! ### The program counter (10_state.md R23) -/

/-- Write of the program counter. -/
def State.setPc (s : State) (a : Word) : State := { s with pc := a }

/-- The common advance by 2, modulo 65536 (40_step_cycle.md R93). -/
def State.advance (s : State) : State := s.setPc (s.pc + 2#16)

/-- A skip adds a further 2 after the common advance (00_scope.md R9, 40_step_cycle.md R93). -/
def State.skipIf (s : State) (c : Bool) : State := if c then s.setPc (s.pc + 2#16) else s

/-! ### Fatal conditions (60_exceptions.md R160 to R168) -/

/-- Entry of a fatal condition, the one exception mechanism of this hardware: HALTED with the record (kind, opcode, pc), every
other field as it was, `pc` included. `s` is the state before the STEP (40_step_cycle.md R94, 60_exceptions.md R167). -/
def State.raiseFatal (s : State) (kind : FatalKind) (opcode : Option Word) : State :=
  { s with status := .halted ⟨kind, opcode, s.pc⟩ }

/-- An instruction whose one check may fail (60_exceptions.md R166): its effect, or the entry of the fatal condition from the
state before it. The opcode of the record is the instruction's word (log entry 11). -/
def State.orRaise (s : State) (kind : FatalKind) (i : Instr) (effect : Option State) : State :=
  match effect with
  | some t => t
  | none => s.raiseFatal kind (some (encode i))

/-! ### The special registers (10_state.md R24, R26) -/

/-- Write of `I`. -/
def State.setIndex (s : State) (a : Word) : State := { s with i := a }

/-- Write of `DT`. -/
def State.setDelay (s : State) (b : Byte) : State := { s with dt := b }

/-- Write of `ST`. -/
def State.setSound (s : State) (b : Byte) : State := { s with st := b }

/-- The advance of `I` after a block transfer, by QUIRK_INDEX_ADVANCE (43_index_memory.md R134, R135). -/
def State.advanceIndex (s : State) (x : RegIdx) : State :=
  match s.quirks.indexAdvance with
  | .unchanged => s
  | .advance => s.setIndex (s.i + BitVec.ofNat 16 (x.toNat + 1))

/-! ### Memory (20_memory.md R55 to R58) -/

/-- MemRead: the bytes, or none past the bound (20_memory.md R58). -/
def State.memRead (s : State) (a n : Nat) : Option (List Byte) :=
  if Memory.inBounds a n then some (s.mem.bytesFrom a n) else none

/-- MemWrite: the state with the bytes stored, or none past the bound with nothing stored (20_memory.md R58). -/
def State.memWrite (s : State) (a : Nat) (bytes : List Byte) : Option State :=
  if Memory.inBounds a bytes.length then some { s with mem := s.mem.putFrom a bytes } else none

/-- Instruction fetch: the word at `pc`, high byte first, or none when `pc` > 4094 (20_memory.md R52, R56). -/
def State.fetch (s : State) : Option Word :=
  if s.pc.toNat > 4094 then none
  else some (wordOfBytes (s.mem.byteAt s.pc.toNat) (s.mem.byteAt (s.pc.toNat + 1)))

/-! ### The stack (10_state.md R25) -/

/-- Push of a return address, or none when all 16 slots are in use (41_control_flow.md R102). -/
def State.pushReturn (s : State) (a : Word) : Option State :=
  if h : s.sp.val < 16 then some { s with stack := s.stack.set s.sp.val a h, sp := ⟨s.sp.val + 1, by omega⟩ } else none

/-- Pop of the return address into `pc`, or none when the stack is empty; the slot keeps its value (41_control_flow.md R100). -/
def State.popReturn (s : State) : Option State :=
  if h : s.sp.val = 0 then none
  else some { s with pc := s.stack[s.sp.val - 1]'(by omega), sp := ⟨s.sp.val - 1, by omega⟩ }

/-! ### Block register writes (43_index_memory.md R135) -/

/-- Registers written from index `j` up, one byte each. -/
def writeRegsFrom (v : Vector Byte 16) (j : Nat) : List Byte → Vector Byte 16
  | [] => v
  | b :: bs => writeRegsFrom (v.setIfInBounds j b) (j + 1) bs

/-- `V[j] <- bytes[j]` for every byte of the list (43_index_memory.md R135). -/
def State.loadFromZero (s : State) (bytes : List Byte) : State := { s with v := writeRegsFrom s.v 0 bytes }

/-! ### The framebuffer (10_state.md R27, 44_display.md R140, R141) -/

/-- Every cell off (44_display.md R140). -/
def State.clearScreen (s : State) : State := { s with fb := .replicate 32 (.replicate 64 false) }

/-- A pixel coordinate under the edge policy: WRAP reduces it, CLIP leaves it (44_display.md R141). -/
def edgeCoord (edge : DrawEdge) (size coord : Nat) : Nat :=
  match edge with
  | .clip => coord
  | .wrap => coord % size

/-- One set sprite pixel: the cell at column `X`, row `Y` is inverted and a cell that was on is a collision; outside the
screen nothing happens (44_display.md R141). -/
def xorPixel (X Y : Nat) (c : Framebuffer × Bool) : Framebuffer × Bool :=
  if h : X ≤ 63 ∧ Y ≤ 31 then
    (c.1.set Y (c.1[Y].set X (!c.1[Y][X])), c.2 || c.1[Y][X])
  else c

/-- One sprite row: bit 7 is column 0, the leftmost (44_display.md R141).
PRESUMED: the bit order is the spec's general knowledge, unsafe (log entry 9). -/
def xorRow (edge : DrawEdge) (x0 Y : Nat) (row : Byte) (c : Framebuffer × Bool) : Framebuffer × Bool :=
  (List.range 8).foldl
    (fun acc col => if row.getLsbD (7 - col) then xorPixel (edgeCoord edge 64 (x0 + col)) (edgeCoord edge 32 Y) acc else acc) c

/-- The sprite rows from row `Y` down (44_display.md R141). -/
def xorRows (edge : DrawEdge) (x0 Y : Nat) : List Byte → Framebuffer × Bool → Framebuffer × Bool
  | [], c => c
  | row :: rows, c => xorRows edge x0 (Y + 1) rows (xorRow edge x0 Y row c)

/-- The sprite drawn at column `x0`, row `y0`, and VF set to the collision flag (44_display.md R141). -/
def State.drawSprite (s : State) (x0 y0 : Byte) (rows : List Byte) : State :=
  let c := xorRows s.quirks.drawEdge x0.toNat y0.toNat rows (s.fb, false)
  ({ s with fb := c.1 }).setReg vf (flagByte c.2)

/-! ### The key wait (10_state.md R29, R30) -/

/-- `wait <- Some(x)`, and with it BLOCKED (45_keypad_timers.md R153). -/
def State.beginWait (s : State) (x : RegIdx) : State := { s with wait := some x, status := .blocked }

/-- `wait <- None`, and with it RUNNING (60_exceptions.md R173). -/
def State.endWait (s : State) : State := { s with wait := none, status := .running }

/-- `keypad[k] <- pressed` (60_exceptions.md R172). -/
def State.setKeyCell (s : State) (k : Nibble) (pressed : Bool) : State :=
  { s with keypad := s.keypad.set k.toNat pressed k.isLt }

/-! ### The random byte (40_step_cycle.md R95, 60_exceptions.md R180) -/

/-- The byte a `Cxkk` draws: the oldest injected one, or a free one (log entry 5). -/
def State.randomByte (s : State) : Byte :=
  match s.randIn with
  | b :: _ => b
  | [] => Config.randomByte s.draws

/-- The state after the draw: the injected byte is used up, or the next free one is another. -/
def State.dropRandom (s : State) : State :=
  match s.randIn with
  | _ :: bs => { s with randIn := bs }
  | [] => { s with draws := s.draws + 1 }

end Sys2Proof.Machine
end

