-- ==== Sys2Proof/Machine/Alu.lean ====
section
/-! DEFINITION. Register loads and the 8-bit ALU (42_alu.md). The operands are read before any write (40_step_cycle.md R97).
No instruction here can raise a fatal condition. -/

namespace Sys2Proof.Machine

/-- `6xkk` LD Vx, kk (42_alu.md R110). -/
def execLdImm (x : RegIdx) (kk : Byte) (s : State) : Outcome := .next (s.advance.setReg x kk)

/-- `7xkk` ADD Vx, kk: wraps, no flag (42_alu.md R111). -/
def execAddImm (x : RegIdx) (kk : Byte) (s : State) : Outcome := .next (s.advance.setReg x (s.reg x + kk))

/-- `8xy0` LD Vx, Vy (42_alu.md R112). -/
def execLdReg (x y : RegIdx) (s : State) : Outcome := .next (s.advance.setReg x (s.reg y))

/-- `8xy1` OR Vx, Vy: VF untouched (42_alu.md R113). -/
def execOrReg (x y : RegIdx) (s : State) : Outcome := .next (s.advance.setReg x (s.reg x ||| s.reg y))

/-- `8xy2` AND Vx, Vy: VF untouched (42_alu.md R114). -/
def execAndReg (x y : RegIdx) (s : State) : Outcome := .next (s.advance.setReg x (s.reg x &&& s.reg y))

/-- `8xy3` XOR Vx, Vy: VF untouched (42_alu.md R115). -/
def execXorReg (x y : RegIdx) (s : State) : Outcome := .next (s.advance.setReg x (s.reg x ^^^ s.reg y))

/-- `8xy4` ADD Vx, Vy: VF is the carry (42_alu.md R116). -/
def execAddReg (x y : RegIdx) (s : State) : Outcome :=
  .next (s.advance.writeResultAndFlag x (s.reg x + s.reg y) (carryFlag (s.reg x) (s.reg y)))

/-- `8xy5` SUB Vx, Vy: VF is no borrow (42_alu.md R117). -/
def execSubReg (x y : RegIdx) (s : State) : Outcome :=
  .next (s.advance.writeResultAndFlag x (s.reg x - s.reg y) (noBorrowFlag (s.reg x) (s.reg y)))

/-- `8xy6` SHR Vx, Vy: one place, 0 shifted in, VF the bit shifted out (42_alu.md R118). -/
def execShr (x y : RegIdx) (s : State) : Outcome :=
  .next (s.advance.writeResultAndFlag x (s.shiftOperand x y >>> 1) (shiftedOutRight (s.shiftOperand x y)))

/-- `8xy7` SUBN Vx, Vy: `V[y] - V[x]`, VF is no borrow (42_alu.md R119). -/
def execSubn (x y : RegIdx) (s : State) : Outcome :=
  .next (s.advance.writeResultAndFlag x (s.reg y - s.reg x) (noBorrowFlag (s.reg y) (s.reg x)))

/-- `8xyE` SHL Vx, Vy: one place, 0 shifted in, VF the bit shifted out (42_alu.md R120). -/
def execShl (x y : RegIdx) (s : State) : Outcome :=
  .next (s.advance.writeResultAndFlag x (s.shiftOperand x y <<< 1) (shiftedOutLeft (s.shiftOperand x y)))

/-- `Cxkk` RND Vx, kk: the random byte of this STEP under the mask (42_alu.md R121, log entry 5). -/
def execRnd (x : RegIdx) (kk : Byte) (s : State) : Outcome :=
  .next (s.advance.dropRandom.setReg x (s.randomByte &&& kk))

end Sys2Proof.Machine
end

