-- ==== Sys2Proof/Machine/ControlFlow.lean ====
section
/-! DEFINITION. Control flow (41_control_flow.md). A meaning starts with `pc` at the instruction and does the common advance
itself (40_step_cycle.md R93, log entry 11). -/

namespace Sys2Proof.Machine

/-- `00EE` RET (41_control_flow.md R100). -/
def execRet (s : State) : Outcome := .next (s.orRaise .stackUnderflow .ret s.advance.popReturn)

/-- `1nnn` JP nnn (41_control_flow.md R101). -/
def execJp (nnn : Addr12) (s : State) : Outcome := .next (s.advance.setPc (addrOperand nnn))

/-- `2nnn` CALL nnn: the address pushed is the advanced `pc` (41_control_flow.md R102). -/
def execCall (nnn : Addr12) (s : State) : Outcome :=
  .next (s.orRaise .stackOverflow (.call nnn)
    ((s.advance.pushReturn s.advance.pc).map fun t => t.setPc (addrOperand nnn)))

/-- `3xkk` SE Vx, kk (41_control_flow.md R103). -/
def execSeImm (x : RegIdx) (kk : Byte) (s : State) : Outcome := .next (s.advance.skipIf (decide (s.reg x = kk)))

/-- `4xkk` SNE Vx, kk (41_control_flow.md R104). -/
def execSneImm (x : RegIdx) (kk : Byte) (s : State) : Outcome := .next (s.advance.skipIf (decide (s.reg x ≠ kk)))

/-- `5xy0` SE Vx, Vy (41_control_flow.md R105). -/
def execSeReg (x y : RegIdx) (s : State) : Outcome := .next (s.advance.skipIf (decide (s.reg x = s.reg y)))

/-- `9xy0` SNE Vx, Vy (41_control_flow.md R106). -/
def execSneReg (x y : RegIdx) (s : State) : Outcome := .next (s.advance.skipIf (decide (s.reg x ≠ s.reg y)))

/-- `Bnnn` JP V0, nnn: always `V[0]`, the sum not reduced to 12 bits (41_control_flow.md R107). -/
def execJpV0 (nnn : Addr12) (s : State) : Outcome :=
  .next (s.advance.setPc (addrOperand nnn + zext16 (s.reg 0#4)))

end Sys2Proof.Machine
end

