-- ==== Sys2Proof/Machine/Display.lean ====
section
/-! DEFINITION. Clear screen and the sprite XOR renderer (44_display.md). -/

namespace Sys2Proof.Machine

/-- `00E0` CLS (44_display.md R140). -/
def execCls (s : State) : Outcome := .next s.advance.clearScreen

/-- `Dxyn` DRW Vx, Vy, n: `V[x]` and `V[y]` are read before VF is written; the bound covers all `n` bytes and `n` = 0 passes
for every `I` (44_display.md R141). -/
def execDrw (x y : RegIdx) (n : Nibble) (s : State) : Outcome :=
  .next (s.orRaise .memoryOutOfBounds (.drw x y n)
    ((s.memRead s.indexBase n.toNat).map fun rows => s.advance.drawSprite (s.reg x) (s.reg y) rows))

end Sys2Proof.Machine
end

