-- ==== Sys2Proof/Machine/IndexMemory.lean ====
section
/-! DEFINITION. The index register, loads and stores (43_index_memory.md). The one addressing mode is `I` plus an ascending
offset; the bound is checked before any effect (20_memory.md R55). -/

namespace Sys2Proof.Machine

/-- `Annn` LD I, nnn (43_index_memory.md R130). -/
def execLdI (nnn : Addr12) (s : State) : Outcome := .next (s.advance.setIndex (addrOperand nnn))

/-- `Fx1E` ADD I, Vx: modulo 65536, no flag, not validated here (43_index_memory.md R131). -/
def execAddI (x : RegIdx) (s : State) : Outcome := .next (s.advance.setIndex (s.i + zext16 (s.reg x)))

/-- `Fx29` LD F, Vx (43_index_memory.md R132). -/
def execLdF (x : RegIdx) (s : State) : Outcome := .next (s.advance.setIndex (glyphAddress (s.reg x)))

/-- `Fx33` LD B, Vx (43_index_memory.md R133). -/
def execLdB (x : RegIdx) (s : State) : Outcome :=
  .next (s.orRaise .memoryOutOfBounds (.ldB x) (s.advance.memWrite s.indexBase (bcdDigits (s.reg x))))

/-- `Fx55` LD [I], Vx (43_index_memory.md R134). -/
def execStoreRegs (x : RegIdx) (s : State) : Outcome :=
  .next (s.orRaise .memoryOutOfBounds (.storeRegs x)
    ((s.advance.memWrite s.indexBase (s.regsUpTo x)).map fun t => t.advanceIndex x))

/-- `Fx65` LD Vx, [I] (43_index_memory.md R135). -/
def execLoadRegs (x : RegIdx) (s : State) : Outcome :=
  .next (s.orRaise .memoryOutOfBounds (.loadRegs x)
    ((s.memRead s.indexBase (x.toNat + 1)).map fun bytes => (s.advance.loadFromZero bytes).advanceIndex x))

end Sys2Proof.Machine
end

