-- ==== Sys2Proof/Machine/KeypadTimers.lean ====
section
/-! DEFINITION. The keypad and timer instructions (45_keypad_timers.md). The events that change the keypad and count the timers
down are in Machine/Events.lean. -/

namespace Sys2Proof.Machine

/-- `Ex9E` SKP Vx (45_keypad_timers.md R150). -/
def execSkp (x : RegIdx) (s : State) : Outcome :=
  .next (s.orRaise .keyIndexOutOfRange (.skp x) ((keyOperand (s.reg x)).map fun k => s.advance.skipIf (s.key k)))

/-- `ExA1` SKNP Vx (45_keypad_timers.md R151). -/
def execSknp (x : RegIdx) (s : State) : Outcome :=
  .next (s.orRaise .keyIndexOutOfRange (.sknp x) ((keyOperand (s.reg x)).map fun k => s.advance.skipIf (!s.key k)))

/-- `Fx07` LD Vx, DT (45_keypad_timers.md R152). -/
def execLdVxDT (x : RegIdx) (s : State) : Outcome := .next (s.advance.setReg x s.dt)

/-- `Fx0A` LD Vx, K: the core blocks; `pc` is already past the instruction (45_keypad_timers.md R153). -/
def execLdVxK (x : RegIdx) (s : State) : Outcome := .next (s.advance.beginWait x)

/-- `Fx15` LD DT, Vx (45_keypad_timers.md R154). -/
def execLdDTVx (x : RegIdx) (s : State) : Outcome := .next (s.advance.setDelay (s.reg x))

/-- `Fx18` LD ST, Vx (45_keypad_timers.md R155). -/
def execLdSTVx (x : RegIdx) (s : State) : Outcome := .next (s.advance.setSound (s.reg x))

end Sys2Proof.Machine
end

