-- ==== Sys2Proof/Machine/Step.lean ====
section
/-! DEFINITION. The STEP event (40_step_cycle.md R90) and the place a word is put so that the next STEP runs it. -/

namespace Sys2Proof.Machine

/-- STEP (40_step_cycle.md R90): nothing in HALTED and in BLOCKED; in RUNNING one instruction is fetched, decoded and executed,
with the checks in the order of 60_exceptions.md R166. -/
def step (s : State) : Host.Outcome State Fault Refusal :=
  match s.status with
  | .halted _ => .next s
  | .blocked => .next s
  | .running =>
    match s.fetch with
    | none => .next (s.raiseFatal .memoryOutOfBounds none)
    | some w =>
      match decodeWord w with
      | none => .next (s.raiseFatal .unknownOpcode (some w))
      | some i => exec i s

/-- The state with a table word stored where STEP fetches its next instruction, in RUNNING and with `pc` fetchable, which is
all that the fetch needs (log entry 7). -/
def State.withFetchWord (s : State) (nbits w : Nat) : State :=
  let p : Word := if s.pc.toNat > 4094 then BitVec.ofNat 16 Config.progBase else s.pc
  { s with
    pc := p
    mem := s.mem.putFrom p.toNat (bytesOfWord (tableWord nbits w))
    wait := none
    status := .running }

end Sys2Proof.Machine
end

