-- ==== Sys2Proof/Machine/Events.lean ====
section
/-! DEFINITION. The four input events (00_scope.md R10) and the outputs, functions of the state (40_step_cycle.md R96,
60_exceptions.md R174, R175, 44_display.md R143). -/

namespace Sys2Proof.Machine

/-! ### TICK and SET_KEY (60_exceptions.md R171 to R173) -/

/-- A timer counts down by 1 and stops at 0 (60_exceptions.md R171). -/
def countDown (b : Byte) : Byte := if b = 0#8 then 0#8 else b - 1#8

/-- TICK: both timers count down, in RUNNING and in BLOCKED alike; nothing in HALTED (60_exceptions.md R171). -/
def tick (s : State) : State :=
  match s.status with
  | .halted _ => s
  | .running => (s.setDelay (countDown s.dt)).setSound (countDown s.st)
  | .blocked => (s.setDelay (countDown s.dt)).setSound (countDown s.st)

/-- A press edge: pressed now, not pressed before (60_exceptions.md R172). -/
def State.pressEdge (s : State) (k : Nibble) (pressed : Bool) : Bool := pressed && !s.key k

/-- Resolution of the key wait by a press edge of key `k` (60_exceptions.md R173). -/
def State.resolveWait (s : State) (k : Nibble) : State :=
  match s.wait with
  | some x => s.endWait.setReg x (k.setWidth 8)
  | none => s

/-- SET_KEY when the core is not HALTED (60_exceptions.md R172). -/
def State.keyEvent (s : State) (k : Nibble) (pressed : Bool) : State :=
  if s.pressEdge k pressed then (s.setKeyCell k pressed).resolveWait k else s.setKeyCell k pressed

/-- SET_KEY: the keypad cell, and on a press edge the key wait; nothing in HALTED (60_exceptions.md R172). -/
def setKey (k : Nibble) (pressed : Bool) (s : State) : State :=
  match s.status with
  | .halted _ => s
  | .running => s.keyEvent k pressed
  | .blocked => s.keyEvent k pressed

/-! ### RESET (70_reset_and_hazards.md R190) -/

/-- The state RESET leaves: everything zero, the font from 0, the ROM image from 512, the quirk profile latched
(70_reset_and_hazards.md R190). The source of random bytes belongs to the host and runs on (log entry 5). -/
def State.afterReset (s : State) (rom : List Byte) (quirks : Quirks) (font : Vector Byte 80) : State :=
  { State.reset with
    mem := (Memory.putFrom [] 0 font.toList).putFrom Config.progBase rom
    quirks := quirks
    randIn := s.randIn
    draws := s.draws }

/-! ### STEP with its random byte (40_step_cycle.md R90, R95) -/

/-- STEP(rand): the host supplies the byte with the event; an instruction other than `Cxkk` ignores it and it is gone
(40_step_cycle.md R95). -/
def stepWith (rand : Byte) (s : State) : Outcome :=
  match step { s with randIn := rand :: s.randIn } with
  | .next t => .next { t with randIn := s.randIn }
  | .fault r => .fault r
  | .refused r => .refused r

/-! ### All events (00_scope.md R10) -/

/-- The four input events and their arguments (00_scope.md R10). -/
inductive Event
  /-- RESET(rom, quirks, FONT) (70_reset_and_hazards.md R190) -/
  | reset (rom : List Byte) (quirks : Quirks) (font : Vector Byte 80)
  /-- STEP(rand) (40_step_cycle.md R90) -/
  | step (rand : Byte)
  /-- TICK() (60_exceptions.md R171) -/
  | tick
  /-- SET_KEY(k, pressed) (60_exceptions.md R172) -/
  | setKey (k : Nibble) (pressed : Bool)
  deriving DecidableEq, Repr

/-- One event; RESET may come in any status, and an oversized ROM image is refused (70_reset_and_hazards.md R190, R191). -/
def applyEvent (e : Event) (s : State) : Outcome :=
  match e with
  | .reset rom quirks font => if romWellFormed rom then .next (s.afterReset rom quirks font) else .refused .romTooLarge
  | .step rand => stepWith rand s
  | .tick => .next (Sys2Proof.Machine.tick s)
  | .setKey k pressed => .next (Sys2Proof.Machine.setKey k pressed s)

/-- Events one after another, in any order and number, up to the first fault or refusal (60_exceptions.md R170). -/
def applyEvents : List Event → State → Outcome
  | [], s => .next s
  | e :: es, s =>
    match applyEvent e s with
    | .next t => applyEvents es t
    | .fault r => .fault r
    | .refused r => .refused r

/-! ### Outputs -/

/-- The result of a STEP (40_step_cycle.md R96). -/
inductive StepResult
  | ok
  | blocked
  | fatal (err : ErrorRecord)
  deriving DecidableEq, Repr

/-- The result is a function of the state after the STEP (40_step_cycle.md R96). -/
def State.result (s : State) : StepResult :=
  match s.status with
  | .running => .ok
  | .blocked => .blocked
  | .halted e => .fatal e

/-- `err`, present only in HALTED (10_state.md R30). -/
def State.err (s : State) : Option ErrorRecord :=
  match s.status with
  | .halted e => some e
  | .running => none
  | .blocked => none

/-- The numeric code of a fatal condition (60_exceptions.md R160). -/
def FatalKind.code : FatalKind → Nat
  | .unknownOpcode => 1
  | .stackOverflow => 2
  | .stackUnderflow => 3
  | .memoryOutOfBounds => 4
  | .keyIndexOutOfRange => 5

/-- The tone-active output: `ST` is not 0 (60_exceptions.md R174). -/
def State.toneActive (s : State) : Bool := decide (s.st ≠ 0#8)

/-- The framebuffer read port: the cell at row `r`, column `c` (44_display.md R143). -/
def State.pixel (s : State) (r : Fin 32) (c : Fin 64) : Bool := (s.fb[r.val]'r.isLt)[c.val]'c.isLt

end Sys2Proof.Machine
end

