-- ==== Sys2Proof/Safety.lean ====
section
/-! DEFINITION. What claims are stated in: the states a run can be in, a safe state, the end of a run, and the relations that
say what a transition leaves alone. -/

namespace Sys2Proof.Machine

/-- A state no fatal condition has ended: HALTED is "a fault state that is never a successful end of a run"
(60_exceptions.md R168). -/
def State.Safe (s : State) : Prop := ∀ e, s.status ≠ .halted e

/-- The conventional end of a run: RUNNING, and the instruction at `pc` is a jump to `pc` (40_step_cycle.md R98). -/
def State.AtEnd (s : State) : Prop :=
  s.status = .running ∧ ∃ nnn, s.pc = addrOperand nnn ∧ s.fetch = some (0x1000#16 + s.pc)

/-- What holds in every state a run can reach, and not in every value of `State` (10_state.md R30, R35; 20_memory.md R50). -/
structure State.Inv (s : State) : Prop where
  /-- memory keeps its canonical form, inside the 4096 bytes (10_state.md R31) -/
  mem_canonical : s.mem.wf = true
  /-- BLOCKED exactly when a key wait stands, and no wait stands in HALTED (10_state.md R30) -/
  blocked_iff_wait : s.status = .blocked ↔ s.wait ≠ none
  /-- a live return address is at most 4096, since a call is fetched at 4094 or below (41_control_flow.md R100) -/
  live_returns : ∀ j, (h : j < 16) → j < s.sp.val → (s.stack[j]'h).toNat ≤ 4096
  /-- `pc` never passes 0x10FE, the largest target of `Bnnn` (10_state.md R23) -/
  pc_bound : s.pc.toNat ≤ 0x10FE
  /-- in HALTED, `pc` is at the offending instruction (60_exceptions.md R167) -/
  halted_pc : ∀ e, s.status = .halted e → e.pc = s.pc

/-- Every byte of memory reads as before. -/
def SameMemory (s t : State) : Prop := ∀ a, t.mem.byteAt a = s.mem.byteAt a

/-- Every byte of memory outside the `n` bytes at `base` reads as before. -/
def SameMemoryOutside (base n : Nat) (s t : State) : Prop :=
  ∀ a, (a < base ∨ base + n ≤ a) → t.mem.byteAt a = s.mem.byteAt a

/-- Every general register but those that satisfy `p` is unchanged. -/
def SameRegsBut (p : RegIdx → Prop) (s t : State) : Prop := ∀ r, ¬ p r → t.reg r = s.reg r

/-- The stack and its pointer are unchanged. -/
def SameStack (s t : State) : Prop := t.stack = s.stack ∧ t.sp = s.sp

/-- The two timers are unchanged. -/
def SameTimers (s t : State) : Prop := t.dt = s.dt ∧ t.st = s.st

/-- The framebuffer is unchanged. -/
def SameScreen (s t : State) : Prop := t.fb = s.fb

/-- The keypad, the key wait and the run status are unchanged. -/
def SameControl (s t : State) : Prop := t.keypad = s.keypad ∧ t.wait = s.wait ∧ t.status = s.status

/-- What no instruction but `Cxkk` touches at all: the quirk profile and the source of random bytes (00_scope.md R6, 40_step_cycle.md R95). -/
def SameParameters (s t : State) : Prop := t.quirks = s.quirks ∧ t.randIn = s.randIn ∧ t.draws = s.draws

/-- Everything but the general registers and `pc` is unchanged: the frame of an instruction that only computes in registers. -/
structure SameButRegsPc (s t : State) : Prop where
  memory     : SameMemory s t
  index      : t.i = s.i
  stack      : SameStack s t
  timers     : SameTimers s t
  screen     : SameScreen s t
  control    : SameControl s t
  parameters : SameParameters s t

/-- Every general register is unchanged. -/
def SameRegs (s t : State) : Prop := ∀ r, t.reg r = s.reg r

/-- Everything but `pc` is unchanged: the frame of a jump or a skip. -/
structure SameButPc (s t : State) : Prop where
  registers : SameRegs s t
  rest      : SameButRegsPc s t

/-- The result in `V[x]` and the flag in VF, both as numbers, with the write order of QUIRK_VF_ORDER where `x` is VF, and
every other register unchanged (40_step_cycle.md R97). -/
structure ResultAndFlag (s t : State) (x : RegIdx) (result flag : Nat) : Prop where
  apart      : x ≠ vf → (t.reg x).toNat = result ∧ (t.reg vf).toNat = flag
  flagLast   : x = vf → s.quirks.vfOrder = .flagLast → (t.reg vf).toNat = flag
  resultLast : x = vf → s.quirks.vfOrder = .resultLast → (t.reg vf).toNat = result
  others     : SameRegsBut (fun r => r = x ∨ r = vf) s t

/-- The state before the STEP, with HALTED and its record in place of its status and nothing else changed
(40_step_cycle.md R94, 60_exceptions.md R167). -/
def HaltedFrom (s : State) (kind : FatalKind) (opcode : Option Word) : State :=
  { s with status := .halted ⟨kind, opcode, s.pc⟩ }

/-- The bytes of memory with a block stored over them, as a read of one address (20_memory.md R58). -/
def byteUnder (m : Memory) (base : Nat) (block : List Byte) (a : Nat) : Byte :=
  if base ≤ a ∧ a < base + block.length then block.getD (a - base) 0#8 else m.byteAt a

/-- The word a fetch at `p` sees when a block has been stored over memory: the byte at the lower address is the high byte
(20_memory.md R52). -/
def wordUnder (m : Memory) (base : Nat) (block : List Byte) (p : Nat) : Word :=
  BitVec.ofNat 16 ((byteUnder m base block p).toNat * 256 + (byteUnder m base block (p + 1)).toNat)

/-- The instructions for which 70_reset_and_hazards.md R198 names QUIRK_SHIFT_SOURCE: the shifts, only where `x` is not `y`. -/
def NamesShiftSource : Instr → Prop
  | .shr x y | .shl x y => x ≠ y
  | _ => False

/-- The instructions for which 70_reset_and_hazards.md R198 names QUIRK_INDEX_ADVANCE: the block transfers. -/
def NamesIndexAdvance : Instr → Prop
  | .storeRegs _ | .loadRegs _ => True
  | _ => False

/-- The instructions for which 70_reset_and_hazards.md R198 names QUIRK_DRAW_EDGE: `Dxyn`, only where some set sprite pixel falls
beyond column 63 or row 31. -/
def NamesDrawEdge (s : State) : Instr → Prop
  | .drw x y n => ∃ row col, row < n.toNat ∧ col < 8 ∧ (s.mem.byteAt (s.i.toNat + row)).getLsbD (7 - col) = true ∧
      (63 < (s.reg x).toNat + col ∨ 31 < (s.reg y).toNat + row)
  | _ => False

/-- The instructions for which 70_reset_and_hazards.md R198 names QUIRK_VF_ORDER: the five ALU flag writers, only with `x` VF. -/
def NamesVfOrder : Instr → Prop
  | .addReg x _ | .subReg x _ | .shr x _ | .subn x _ | .shl x _ => x = vf
  | _ => False

/-- The registers an instruction writes as its destination (10_state.md R20, 43_index_memory.md R135). -/
def IsDestination : Instr → RegIdx → Prop
  | .ldImm x _, r | .addImm x _, r | .rnd x _, r | .ldVxDT x, r => r = x
  | .ldReg x _, r | .orReg x _, r | .andReg x _, r | .xorReg x _, r => r = x
  | .addReg x _, r | .subReg x _, r | .shr x _, r | .subn x _, r | .shl x _, r => r = x
  | .loadRegs x, r => r.toNat ≤ x.toNat
  | _, _ => False

/-- The six instructions that write VF as a flag (10_state.md R22). -/
def WritesFlag : Instr → Prop
  | .addReg _ _ | .subReg _ _ | .shr _ _ | .subn _ _ | .shl _ _ | .drw _ _ _ => True
  | _ => False

/-- The bits of the sprite row `row` of `rows`, column `col` of 8: bit 7 is column 0 (44_display.md R141). -/
def spriteBit (rows : List Byte) (row col : Nat) : Bool := (rows.getD row 0#8).getLsbD (7 - col)

/-- Whether the set pixel at row `row`, column `col` of a sprite drawn at column `x0`, row `y0` falls on the cell (`r`, `c`)
under the edge policy (44_display.md R141). -/
def pixelFallsOn (edge : DrawEdge) (x0 y0 row col r c : Nat) : Prop :=
  edgeCoord edge 64 (x0 + col) = c ∧ edgeCoord edge 32 (y0 + row) = r

/-- Whether a sprite covers the cell (`r`, `c`) with a set pixel: the declarative reading of the loops of 44_display.md R141. -/
def SpriteCovers (edge : DrawEdge) (x0 y0 : Nat) (rows : List Byte) (r c : Nat) : Prop :=
  ∃ row col, row < rows.length ∧ col < 8 ∧ spriteBit rows row col = true ∧ pixelFallsOn edge x0 y0 row col r c

end Sys2Proof.Machine
end

