-- ==== Sys2Proof/Certificates/Slice0/Obligations.lean ====
section
/-! DEFINITION. The statements for the provers: what an instruction, an event and the machine do, from the rules of spec/. -/

open Sys2Proof Sys2Proof.Machine

/-! ### Encoding (30_encoding.md) -/

/-- 30_encoding.md R75: words written out from the map, one or more of each of the 16 families, decode to their instructions, and
`0000`, `01E0` and `812F` are Unknown (`01E0` by decision D6 of the spec, 30_encoding.md R76, log entry 10). The patterns other than
`00EE`, `2nnn`, `6xkk`, `7xkk`, `8xy4`, `8xy5`, `Fx0A`, `Fx33`, `Fx55`, `Fx65` are general knowledge (D27, log entry 8). -/
def Obligations.WrittenWordsDecode : Prop :=
  decodeWord 0x00E0#16 = some .cls ∧ decodeWord 0x00EE#16 = some .ret ∧
  decodeWord 0x1234#16 = some (.jp 0x234#12) ∧ decodeWord 0x2ABC#16 = some (.call 0xABC#12) ∧
  decodeWord 0x332A#16 = some (.seImm 3#4 0x2A#8) ∧ decodeWord 0x432B#16 = some (.sneImm 3#4 0x2B#8) ∧
  decodeWord 0x5120#16 = some (.seReg 1#4 2#4) ∧ decodeWord 0x6A02#16 = some (.ldImm 0xA#4 0x02#8) ∧
  decodeWord 0x7A03#16 = some (.addImm 0xA#4 0x03#8) ∧ decodeWord 0x8124#16 = some (.addReg 1#4 2#4) ∧
  decodeWord 0x8125#16 = some (.subReg 1#4 2#4) ∧ decodeWord 0x812E#16 = some (.shl 1#4 2#4) ∧
  decodeWord 0x9AB0#16 = some (.sneReg 0xA#4 0xB#4) ∧ decodeWord 0xA2F0#16 = some (.ldI 0x2F0#12) ∧
  decodeWord 0xB300#16 = some (.jpV0 0x300#12) ∧ decodeWord 0xC10F#16 = some (.rnd 1#4 0x0F#8) ∧
  decodeWord 0xD12F#16 = some (.drw 1#4 2#4 15#4) ∧
  decodeWord 0xE59E#16 = some (.skp 5#4) ∧ decodeWord 0xE5A1#16 = some (.sknp 5#4) ∧ decodeWord 0xF30A#16 = some (.ldVxK 3#4) ∧
  decodeWord 0xF333#16 = some (.ldB 3#4) ∧ decodeWord 0xF255#16 = some (.storeRegs 2#4) ∧
  decodeWord 0xF165#16 = some (.loadRegs 1#4) ∧ decodeWord 0x0000#16 = none ∧ decodeWord 0x01E0#16 = none ∧
  decodeWord 0x812F#16 = none

/-- 30_encoding.md R83 (the spec derives it): the canonical encoder followed by the decoder is the identity on instructions. -/
def Obligations.DecodeInvertsEncode : Prop :=
  ∀ i : Instr, i.wellFormed = true → decodeWord (encode i) = some i

/-- 30_encoding.md R83 (the spec derives it): the decoder followed by the encoder is the identity on every known word except
`5xyn` and `9xyn` with `n ≠ 0`, which re-encode with `n = 0`. -/
def Obligations.EncodeInvertsDecodeOnCanonicalWords : Prop :=
  ∀ (w : Word) (i : Instr), decodeWord w = some i →
    (canonicalWord w = true → encode i = w) ∧
    (canonicalWord w = false → encode i = w &&& 0xFFF0#16)

/-- 30_encoding.md R75: "Exactly one row or none matches any `w`", and the row that matches is the decoded instruction's
(24 of the patterns are general knowledge, D27, log entry 8). -/
def Obligations.DecodeFollowsTheOpcodeMap : Prop :=
  opcodeTable.length = 34 ∧
  (∀ (w : Word) (i : Instr), decodeWord w = some i →
    i.row ∈ opcodeTable ∧ ∀ r ∈ opcodeTable, (r.selects w = true ↔ r = i.row)) ∧
  (∀ w : Word, decodeWord w = none → ∀ r ∈ opcodeTable, r.selects w = false)

/-- 30_encoding.md R78 (the spec derives it): the Unknown words, family by family. -/
def Obligations.UnknownWordsByFamily : Prop :=
  ∀ w : Word, decodeWord w = none ↔
    (opField w = 0x0#4 ∧ w ≠ 0x00E0#16 ∧ w ≠ 0x00EE#16) ∨
    (opField w = 0x8#4 ∧ nField w ∈ [0x8#4, 0x9#4, 0xA#4, 0xB#4, 0xC#4, 0xD#4, 0xF#4]) ∨
    (opField w = 0xE#4 ∧ kkField w ∉ [0x9E#8, 0xA1#8]) ∨
    (opField w = 0xF#4 ∧ kkField w ∉ [0x07#8, 0x0A#8, 0x15#8, 0x18#8, 0x1E#8, 0x29#8, 0x33#8, 0x55#8, 0x65#8])

/-! ### The STEP cycle (40_step_cycle.md) -/

/-- 20_memory.md R52: the fetched word is `mem[pc] * 256 + mem[pc + 1]`, the byte at the lower address holds the family nibble and
the `x` field, and after RESET ROM byte `2k` is the high byte of the `k`-th instruction word. -/
def Obligations.FetchIsBigEndian : Prop :=
  (∀ s : State, s.pc.toNat ≤ 4094 → ∃ w, s.fetch = some w ∧
    w.toNat = (s.mem.byteAt s.pc.toNat).toNat * 256 + (s.mem.byteAt (s.pc.toNat + 1)).toNat ∧
    (opField w).toNat = (s.mem.byteAt s.pc.toNat).toNat / 16 ∧ (xField w).toNat = (s.mem.byteAt s.pc.toNat).toNat % 16) ∧
  (∀ (rom : List Byte) (q : Quirks) (font : Vector Byte 80) (s : State) (k : Nat), rom.length ≤ 3584 →
    (h : 2 * k + 1 < rom.length) → ∃ t w, applyEvent (.reset rom q font) s = .next t ∧
      ({ t with pc := BitVec.ofNat 16 (512 + 2 * k) } : State).fetch = some w ∧
      w.toNat = (rom[2 * k]'(by omega)).toNat * 256 + (rom[2 * k + 1]'h).toNat)

/-- 20_memory.md R52, 40_step_cycle.md R90, R91: in RUNNING, when the two bytes at `pc`, the lower address high, decode to a
well-formed instruction, STEP is the meaning of that instruction, and the meaning does the common advance itself (log entry 11). -/
def Obligations.StepRunsTheDecodedInstruction : Prop :=
  ∀ (s : State) (i : Instr), s.status = .running → s.pc.toNat ≤ 4094 → i.wellFormed = true →
    decodeWord (BitVec.ofNat 16 ((s.mem.byteAt s.pc.toNat).toNat * 256 + (s.mem.byteAt (s.pc.toNat + 1)).toNat)) = some i →
    step s = exec i s

/-- 60_exceptions.md R161: a fetched word that is no instruction raises UnknownOpcode before any effect; the record and the
unchanged state are the spec's decisions D13, D14. -/
def Obligations.StepOnUnknownOpcodeHalts : Prop :=
  ∀ (s : State) (w : Word), s.status = .running → s.fetch = some w → decodeWord w = none →
    step s = .next (HaltedFrom s .unknownOpcode (some w))

/-- 20_memory.md R56 (decision D7 of the spec): a fetch at `pc` > 4094 raises MemoryOutOfBounds with no opcode; a fetch at 4094
does not. -/
def Obligations.FetchPastMemoryHalts : Prop :=
  (∀ s : State, s.status = .running → 4094 < s.pc.toNat →
    step s = .next (HaltedFrom s .memoryOutOfBounds none)) ∧
  (∀ s : State, s.pc.toNat ≤ 4094 → ∃ w, s.fetch = some w)

/-- 40_step_cycle.md R90: in BLOCKED and in HALTED a STEP changes nothing. -/
def Obligations.StepOutsideRunningChangesNothing : Prop :=
  ∀ s : State, s.status ≠ .running → step s = .next s

/-- 40_step_cycle.md R94, 60_exceptions.md R166, R167 (decisions D13 to D15 of the spec): a STEP that ends in HALTED changes the
status alone; the record holds the address of the offending instruction and its fetched word, absent exactly for a fetch out of
bounds. -/
def Obligations.FatalConditionsArePrecise : Prop :=
  ∀ (s t : State) (e : ErrorRecord), s.status = .running → step s = .next t → t.status = .halted e →
    t = { s with status := .halted e } ∧ e.pc = s.pc ∧ e.opcode = s.fetch ∧
    (e.opcode = none ↔ 4094 < s.pc.toNat)

/-- 60_exceptions.md R160: which instruction raises which condition (StackOverflow by `2nnn` at `sp` = 16, StackUnderflow by
`00EE` at `sp` = 0, MemoryOutOfBounds by the four instructions that use `I`, KeyIndexOutOfRange by the key skips), and no other
instruction ends in HALTED; the status alone changes, and the record is the kind, the word and the address of the instruction
(decisions D13, D14, D17 of the spec). -/
def Obligations.FatalConditionsByInstruction : Prop :=
  ∀ (i : Instr) (s t : State) (e : ErrorRecord), s.status = .running → exec i s = .next t → t.status = .halted e →
    t = { s with status := .halted e } ∧ e.pc = s.pc ∧ e.opcode = some (encode i) ∧
    match i with
    | .ret => e.kind = .stackUnderflow ∧ s.sp.val = 0
    | .call _ => e.kind = .stackOverflow ∧ s.sp.val = 16
    | .drw _ _ n => e.kind = .memoryOutOfBounds ∧ 4095 < s.i.toNat + n.toNat - 1 ∧ n ≠ 0#4
    | .ldB _ => e.kind = .memoryOutOfBounds ∧ 4095 < s.i.toNat + 2
    | .storeRegs x => e.kind = .memoryOutOfBounds ∧ 4095 < s.i.toNat + x.toNat
    | .loadRegs x => e.kind = .memoryOutOfBounds ∧ 4095 < s.i.toNat + x.toNat
    | .skp x => e.kind = .keyIndexOutOfRange ∧ 15 < (s.reg x).toNat
    | .sknp x => e.kind = .keyIndexOutOfRange ∧ 15 < (s.reg x).toNat
    | _ => False

/-- Every STEP, and every instruction in every state, has a next state: the model stops on nothing (log entry 1). -/
def Obligations.EveryStepHasANextState : Prop :=
  (∀ s : State, ∃ t, step s = .next t) ∧ (∀ (i : Instr) (s : State), ∃ t, exec i s = .next t)

/-! ### Control flow (41_control_flow.md) -/

/-- 41_control_flow.md R100: `00EE` decrements `sp` and sets `pc` to the popped address; the slot keeps its value; with an empty
stack it raises StackUnderflow and changes nothing else. That the slot keeps its value is decision D29 of the spec (log entry 10),
that nothing else changes is decision D13 (log entries 1, 10). -/
def Obligations.ReturnPopsTheStack : Prop :=
  decodeWord 0x00EE#16 = some .ret ∧
  (∀ s : State, (h : s.sp.val ≠ 0) → ∃ t, exec .ret s = .next t ∧
    t.sp.val = s.sp.val - 1 ∧ t.pc = s.stack[s.sp.val - 1]'(by omega) ∧ t.stack = s.stack ∧
    SameRegs s t ∧ t.i = s.i ∧ SameTimers s t ∧ SameMemory s t ∧ SameScreen s t ∧ SameControl s t ∧ SameParameters s t) ∧
  (∀ s : State, s.sp.val = 0 → ∃ e : ErrorRecord, exec .ret s = .next { s with status := .halted e } ∧ e.kind = .stackUnderflow)

/-- 41_control_flow.md R102: `2nnn` pushes the address of the next instruction, increments `sp` and sets `pc` to `nnn`; with all
16 slots in use it raises StackOverflow and changes nothing else. That 16 calls succeed and the 17th is fatal is decision D29 of
the spec (log entry 10), that nothing else changes is decision D13 (log entries 1, 10). -/
def Obligations.CallPushesTheNextAddress : Prop :=
  (∀ w : Word, w &&& 0xF000#16 = 0x2000#16 → decodeWord w = some (.call (nnnField w))) ∧
  (∀ (nnn : Addr12) (s : State), (h : s.sp.val < 16) → ∃ t, exec (.call nnn) s = .next t ∧
    t.sp.val = s.sp.val + 1 ∧ t.stack[s.sp.val]'h = s.pc + 2#16 ∧ t.pc.toNat = nnn.toNat ∧
    (∀ j, (hj : j < 16) → j ≠ s.sp.val → t.stack[j]'hj = s.stack[j]'hj) ∧
    SameRegs s t ∧ t.i = s.i ∧ SameTimers s t ∧ SameMemory s t ∧ SameScreen s t ∧ SameControl s t ∧ SameParameters s t) ∧
  (∀ (nnn : Addr12) (s : State), s.sp.val = 16 →
    ∃ e : ErrorRecord, exec (.call nnn) s = .next { s with status := .halted e } ∧ e.kind = .stackOverflow)

/-- 41_control_flow.md R101, R107: `1nnn` sets `pc` to `nnn`, `Bnnn` to `nnn + V[0]`, not reduced to 12 bits; nothing else
changes. -/
def Obligations.JumpsSetPc : Prop :=
  (∀ (nnn : Addr12) (s : State), ∃ t, exec (.jp nnn) s = .next t ∧ t.pc.toNat = nnn.toNat ∧ SameButPc s t) ∧
  (∀ (nnn : Addr12) (s : State), ∃ t, exec (.jpV0 nnn) s = .next t ∧
    t.pc.toNat = nnn.toNat + (s.reg 0#4).toNat ∧ SameButPc s t)

/-- 41_control_flow.md R103 to R106: a skip adds 4 to `pc` where its condition holds and 2 where it does not, modulo 65536;
nothing else changes. -/
def Obligations.SkipsAddFourOrTwo : Prop :=
  (∀ (x : RegIdx) (kk : Byte) (s : State), ∃ t, exec (.seImm x kk) s = .next t ∧ SameButPc s t ∧
    (s.reg x = kk → t.pc = s.pc + 4#16) ∧ (s.reg x ≠ kk → t.pc = s.pc + 2#16)) ∧
  (∀ (x : RegIdx) (kk : Byte) (s : State), ∃ t, exec (.sneImm x kk) s = .next t ∧ SameButPc s t ∧
    (s.reg x ≠ kk → t.pc = s.pc + 4#16) ∧ (s.reg x = kk → t.pc = s.pc + 2#16)) ∧
  (∀ (x y : RegIdx) (s : State), ∃ t, exec (.seReg x y) s = .next t ∧ SameButPc s t ∧
    (s.reg x = s.reg y → t.pc = s.pc + 4#16) ∧ (s.reg x ≠ s.reg y → t.pc = s.pc + 2#16)) ∧
  (∀ (x y : RegIdx) (s : State), ∃ t, exec (.sneReg x y) s = .next t ∧ SameButPc s t ∧
    (s.reg x ≠ s.reg y → t.pc = s.pc + 4#16) ∧ (s.reg x = s.reg y → t.pc = s.pc + 2#16))

/-- The source's stack discipline (95_test_vectors.md S5; 41_control_flow.md R100, R102): a call, then a return at the called
depth with that slot untouched, restores `pc` to the address after the call and `sp` to its value before it. -/
def Obligations.CallThenReturnRestoresPcAndDepth : Prop :=
  ∀ (nnn : Addr12) (s t u : State), s.sp.val < 16 → exec (.call nnn) s = .next t → u.sp = t.sp →
    (∀ h : s.sp.val < 16, u.stack[s.sp.val]'h = t.stack[s.sp.val]'h) →
    ∃ r, exec .ret u = .next r ∧ r.pc = s.pc + 2#16 ∧ r.sp = s.sp

/-- 40_step_cycle.md R98: a jump to its own address is a fixed point of STEP (the end of a run by convention, D25). -/
def Obligations.SelfJumpIsAFixedPointOfStep : Prop :=
  ∀ s : State, s.AtEnd → step s = .next s

/-- 41_control_flow.md R108, 10_state.md R23 (the spec derives the summary): outside the fatal conditions, only the eight
instructions of 41_control_flow.md and the two key skips do anything to `pc` but the common advance, and a skip adds 2 or 4. -/
def Obligations.PcChangesOnlyByControlTransfer : Prop :=
  ∀ (i : Instr) (s t : State), s.status = .running → exec i s = .next t → t.Safe →
    match i with
    | .jp nnn => t.pc = addrOperand nnn
    | .call nnn => t.pc = addrOperand nnn
    | .jpV0 nnn => t.pc.toNat ≤ nnn.toNat + 255
    | .ret => ∃ j, ∃ h : j < 16, j + 1 = s.sp.val ∧ t.pc = s.stack[j]'h
    | .seImm _ _ | .sneImm _ _ | .seReg _ _ | .sneReg _ _ | .skp _ | .sknp _ => t.pc = s.pc + 2#16 ∨ t.pc = s.pc + 4#16
    | _ => t.pc = s.pc + 2#16

/-! ### Registers and the ALU (42_alu.md) -/

/-- 42_alu.md R110: `6xkk` loads `kk` into `V[x]` and changes nothing else but `pc`. -/
def Obligations.LoadImmediateSetsVx : Prop :=
  (∀ w : Word, w &&& 0xF000#16 = 0x6000#16 → decodeWord w = some (.ldImm (xField w) (kkField w))) ∧
  (∀ (x : RegIdx) (kk : Byte) (s : State), ∃ t, exec (.ldImm x kk) s = .next t ∧ t.reg x = kk ∧
    SameRegsBut (· = x) s t ∧ t.pc = s.pc + 2#16 ∧ SameButRegsPc s t)

/-- 42_alu.md R111: `7xkk` adds `kk` to `V[x]` modulo 256 with no flag and changes nothing else but `pc`. -/
def Obligations.AddImmediateWrapsWithoutFlag : Prop :=
  (∀ w : Word, w &&& 0xF000#16 = 0x7000#16 → decodeWord w = some (.addImm (xField w) (kkField w))) ∧
  (∀ (x : RegIdx) (kk : Byte) (s : State), ∃ t, exec (.addImm x kk) s = .next t ∧
    (t.reg x).toNat = ((s.reg x).toNat + kk.toNat) % 256 ∧
    SameRegsBut (· = x) s t ∧ t.pc = s.pc + 2#16 ∧ SameButRegsPc s t)

/-- 42_alu.md R112 to R115: MOV, OR, AND and XOR write `V[x]` from the old operands, bit by bit, and touch neither VF (unless it
is the destination) nor anything else but `pc`. -/
def Obligations.MovesAndBitwiseWriteOnlyVx : Prop :=
  ∀ (x y : RegIdx) (s : State),
    (∃ t, exec (.ldReg x y) s = .next t ∧ t.reg x = s.reg y ∧
      SameRegsBut (· = x) s t ∧ t.pc = s.pc + 2#16 ∧ SameButRegsPc s t) ∧
    (∃ t, exec (.orReg x y) s = .next t ∧
      (∀ b, (t.reg x).getLsbD b = ((s.reg x).getLsbD b || (s.reg y).getLsbD b)) ∧
      SameRegsBut (· = x) s t ∧ t.pc = s.pc + 2#16 ∧ SameButRegsPc s t) ∧
    (∃ t, exec (.andReg x y) s = .next t ∧
      (∀ b, (t.reg x).getLsbD b = ((s.reg x).getLsbD b && (s.reg y).getLsbD b)) ∧
      SameRegsBut (· = x) s t ∧ t.pc = s.pc + 2#16 ∧ SameButRegsPc s t) ∧
    (∃ t, exec (.xorReg x y) s = .next t ∧
      (∀ b, (t.reg x).getLsbD b = ((s.reg x).getLsbD b ^^ (s.reg y).getLsbD b)) ∧
      SameRegsBut (· = x) s t ∧ t.pc = s.pc + 2#16 ∧ SameButRegsPc s t)

/-- 42_alu.md R116: `8xy4` writes the sum modulo 256 and the carry; where `x` is VF the order is the quirk parameter's
(decision D5 of the spec, 40_step_cycle.md R97). -/
def Obligations.AddSetsSumAndCarry : Prop :=
  (∀ w : Word, w &&& 0xF00F#16 = 0x8004#16 → decodeWord w = some (.addReg (xField w) (yField w))) ∧
  (∀ (x y : RegIdx) (s : State), ∃ t, exec (.addReg x y) s = .next t ∧
    ResultAndFlag s t x (((s.reg x).toNat + (s.reg y).toNat) % 256)
      (if (s.reg x).toNat + (s.reg y).toNat > 255 then 1 else 0) ∧
    t.pc = s.pc + 2#16 ∧ SameButRegsPc s t)

/-- 42_alu.md R117: `8xy5` writes `V[x] - V[y]` modulo 256 and the no-borrow flag of the old operands; where `x` is VF the order
is the quirk parameter's (decision D5 of the spec, 40_step_cycle.md R97). -/
def Obligations.SubtractSetsDifferenceAndNoBorrow : Prop :=
  (∀ w : Word, w &&& 0xF00F#16 = 0x8005#16 → decodeWord w = some (.subReg (xField w) (yField w))) ∧
  (∀ (x y : RegIdx) (s : State), ∃ t, exec (.subReg x y) s = .next t ∧
    ResultAndFlag s t x (((s.reg x).toNat + 256 - (s.reg y).toNat) % 256)
      (if (s.reg x).toNat ≥ (s.reg y).toNat then 1 else 0) ∧
    t.pc = s.pc + 2#16 ∧ SameButRegsPc s t)

/-- 42_alu.md R119: `8xy7` writes `V[y] - V[x]` modulo 256 and its no-borrow flag (order for VF: decision D5 of the spec). -/
def Obligations.ReverseSubtractSetsDifferenceAndNoBorrow : Prop :=
  ∀ (x y : RegIdx) (s : State), ∃ t, exec (.subn x y) s = .next t ∧
    ResultAndFlag s t x (((s.reg y).toNat + 256 - (s.reg x).toNat) % 256)
      (if (s.reg y).toNat ≥ (s.reg x).toNat then 1 else 0) ∧
    t.pc = s.pc + 2#16 ∧ SameButRegsPc s t

/-- 42_alu.md R118, R120 (decisions D2, D5 of the spec): the shifts read `V[x]` or `V[y]` by the quirk parameter, move one place
with 0 shifted in, and put the bit shifted out in VF. -/
def Obligations.ShiftsMoveOnePlace : Prop :=
  ∀ (x y : RegIdx) (s : State) (b : Nat),
    b = (if s.quirks.shiftSource = .vx then s.reg x else s.reg y).toNat →
    (∃ t, exec (.shr x y) s = .next t ∧ ResultAndFlag s t x (b / 2) (b % 2) ∧
      t.pc = s.pc + 2#16 ∧ SameButRegsPc s t) ∧
    (∃ t, exec (.shl x y) s = .next t ∧ ResultAndFlag s t x (b * 2 % 256) (b / 128) ∧
      t.pc = s.pc + 2#16 ∧ SameButRegsPc s t)

/-- 42_alu.md R121, 40_step_cycle.md R95 (decision D22 of the spec; log entry 5): `Cxkk` writes the random byte of the STEP under
the mask: the injected byte where the host supplied one, else a free one, and the byte is used up. Nothing is claimed of the
free byte. -/
def Obligations.RandomAndMaskSetsVx : Prop :=
  (∀ (x : RegIdx) (kk r : Byte) (rest : List Byte) (s : State), s.randIn = r :: rest →
    ∃ t, exec (.rnd x kk) s = .next t ∧ t.reg x = r &&& kk ∧ t.randIn = rest ∧ t.draws = s.draws ∧ t.quirks = s.quirks ∧
      SameRegsBut (· = x) s t ∧ t.pc = s.pc + 2#16 ∧ SameMemory s t ∧ t.i = s.i ∧ SameStack s t ∧ SameTimers s t ∧
      SameScreen s t ∧ SameControl s t) ∧
  (∀ (x : RegIdx) (kk : Byte) (s : State), s.randIn = [] →
    ∃ t, exec (.rnd x kk) s = .next t ∧ t.reg x = Config.randomByte s.draws &&& kk ∧ t.randIn = [] ∧
      t.draws = s.draws + 1 ∧ t.quirks = s.quirks ∧
      SameRegsBut (· = x) s t ∧ t.pc = s.pc + 2#16 ∧ SameMemory s t ∧ t.i = s.i ∧ SameStack s t ∧ SameTimers s t ∧
      SameScreen s t ∧ SameControl s t)

/-- 40_step_cycle.md R95 (decision D22 of the spec; log entry 5): the event STEP(rand) that runs a `Cxkk` uses its own byte and
leaves the source of random bytes as it was, and every other STEP(rand), one in BLOCKED or HALTED included whatever word `pc` holds,
is STEP, whatever its byte. -/
def Obligations.StepEventUsesItsByteOnlyForRandom : Prop :=
  (∀ (s : State) (w : Word) (x : RegIdx) (kk r : Byte), s.status = .running → s.fetch = some w →
    decodeWord w = some (.rnd x kk) →
    ∃ t, applyEvent (.step r) s = .next t ∧ t.reg x = r &&& kk ∧ SameRegsBut (· = x) s t ∧ t.pc = s.pc + 2#16 ∧
      SameButRegsPc s t) ∧
  (∀ (s : State) (r : Byte), (s.status = .running → ∀ w x kk, s.fetch = some w → decodeWord w ≠ some (.rnd x kk)) →
    applyEvent (.step r) s = step s)

/-- 10_state.md R22: no instruction writes VF as a side effect but the six flag writers, so VF changes only where it is the
destination or the instruction is one of the six, and a flag writer whose destination is not VF leaves 0 or 1 there (where it is
VF: decision D5 of the spec). -/
def Obligations.VfChangesOnlyByFlagWriters : Prop :=
  (∀ (i : Instr) (s t : State), exec i s = .next t → ¬ WritesFlag i → ¬ IsDestination i vf → t.reg vf = s.reg vf) ∧
  (∀ (i : Instr) (s t : State), exec i s = .next t → t.Safe → WritesFlag i → ¬ IsDestination i vf →
    t.reg vf = 0#8 ∨ t.reg vf = 1#8)

/-! ### The index register and memory (43_index_memory.md, 20_memory.md) -/

/-- 43_index_memory.md R130 to R132 (decisions D18, D26 of the spec): `Annn`, `Fx1E` and `Fx29` write `I`, modulo 65536 and with
no masking, and nothing else but `pc`. -/
def Obligations.IndexWritesSetI : Prop :=
  (∀ (nnn : Addr12) (s : State), ∃ t, exec (.ldI nnn) s = .next t ∧ t.i.toNat = nnn.toNat ∧
    t.pc = s.pc + 2#16 ∧ SameRegs s t ∧ SameMemory s t ∧ SameStack s t ∧ SameTimers s t ∧ SameScreen s t ∧
    SameControl s t ∧ SameParameters s t) ∧
  (∀ (x : RegIdx) (s : State), ∃ t, exec (.addI x) s = .next t ∧ t.i.toNat = (s.i.toNat + (s.reg x).toNat) % 65536 ∧
    t.pc = s.pc + 2#16 ∧ SameRegs s t ∧ SameMemory s t ∧ SameStack s t ∧ SameTimers s t ∧ SameScreen s t ∧
    SameControl s t ∧ SameParameters s t) ∧
  (∀ (x : RegIdx) (s : State), ∃ t, exec (.ldF x) s = .next t ∧ t.i.toNat = (s.reg x).toNat * 5 ∧
    t.pc = s.pc + 2#16 ∧ SameRegs s t ∧ SameMemory s t ∧ SameStack s t ∧ SameTimers s t ∧ SameScreen s t ∧
    SameControl s t ∧ SameParameters s t)

/-- 43_index_memory.md R133: `Fx33` stores hundreds, tens and units at `I`, `I + 1`, `I + 2`; past 4095 it raises
MemoryOutOfBounds and stores nothing. The stop past 4095 with nothing stored is decision D9 of the spec (20_memory.md R55, log entry
10), that nothing else changes is decision D13 (log entries 1, 10). (`mem.wf` is the model's canonical form of memory, kept by every event:
EveryInterleavingKeepsTheInvariant.) -/
def Obligations.StoreBcdWritesThreeDigits : Prop :=
  (∀ w : Word, w &&& 0xF0FF#16 = 0xF033#16 → decodeWord w = some (.ldB (xField w))) ∧
  (∀ (x : RegIdx) (s : State), s.mem.wf = true → s.i.toNat + 2 ≤ 4095 → ∃ t, exec (.ldB x) s = .next t ∧
    (t.mem.byteAt s.indexBase).toNat = (s.reg x).toNat / 100 ∧
    (t.mem.byteAt (s.indexBase + 1)).toNat = (s.reg x).toNat / 10 % 10 ∧
    (t.mem.byteAt (s.indexBase + 2)).toNat = (s.reg x).toNat % 10 ∧
    SameMemoryOutside s.indexBase 3 s t ∧ t.i = s.i ∧ t.pc = s.pc + 2#16 ∧ SameRegs s t ∧ SameStack s t ∧
    SameTimers s t ∧ SameScreen s t ∧ SameControl s t ∧ SameParameters s t) ∧
  (∀ (x : RegIdx) (s : State), 4095 < s.i.toNat + 2 →
    ∃ e : ErrorRecord, exec (.ldB x) s = .next { s with status := .halted e } ∧ e.kind = .memoryOutOfBounds)

/-- 43_index_memory.md R134, 20_memory.md R55 (decisions D3, D9 of the spec): `Fx55` stores `V[0]`..`V[x]` at `I`..`I + x`, and
`I` moves by `x + 1` only under ADVANCE; past 4095 it raises MemoryOutOfBounds and stores nothing. -/
def Obligations.RegisterDumpStoresTheBlock : Prop :=
  (∀ (x : RegIdx) (s : State), s.mem.wf = true → s.i.toNat + x.toNat ≤ 4095 → ∃ t, exec (.storeRegs x) s = .next t ∧
    (∀ r : RegIdx, r.toNat ≤ x.toNat → t.mem.byteAt (s.indexBase + r.toNat) = s.reg r) ∧
    SameMemoryOutside s.indexBase (x.toNat + 1) s t ∧
    (s.quirks.indexAdvance = .unchanged → t.i = s.i) ∧
    (s.quirks.indexAdvance = .advance → t.i.toNat = s.i.toNat + x.toNat + 1) ∧
    t.pc = s.pc + 2#16 ∧ SameRegs s t ∧ SameStack s t ∧ SameTimers s t ∧ SameScreen s t ∧ SameControl s t ∧
    SameParameters s t) ∧
  (∀ (x : RegIdx) (s : State), 4095 < s.i.toNat + x.toNat →
    exec (.storeRegs x) s = .next (HaltedFrom s .memoryOutOfBounds (some (0xF055#16 ||| (x.setWidth 16 <<< 8)))))

/-- 43_index_memory.md R135, 20_memory.md R55 (decisions D3, D9 of the spec): `Fx65` loads `V[0]`..`V[x]` from `I`..`I + x`,
leaves the registers above `x` and all of memory, and `I` moves by `x + 1` only under ADVANCE; past 4095 it raises
MemoryOutOfBounds and loads nothing. -/
def Obligations.RegisterLoadReadsTheBlock : Prop :=
  (∀ (x : RegIdx) (s : State), s.i.toNat + x.toNat ≤ 4095 → ∃ t, exec (.loadRegs x) s = .next t ∧
    (∀ r : RegIdx, r.toNat ≤ x.toNat → t.reg r = s.mem.byteAt (s.i.toNat + r.toNat)) ∧
    SameRegsBut (fun r => r.toNat ≤ x.toNat) s t ∧ SameMemory s t ∧
    (s.quirks.indexAdvance = .unchanged → t.i = s.i) ∧
    (s.quirks.indexAdvance = .advance → t.i.toNat = s.i.toNat + x.toNat + 1) ∧
    t.pc = s.pc + 2#16 ∧ SameStack s t ∧ SameTimers s t ∧ SameScreen s t ∧ SameControl s t ∧ SameParameters s t) ∧
  (∀ (x : RegIdx) (s : State), 4095 < s.i.toNat + x.toNat →
    exec (.loadRegs x) s = .next (HaltedFrom s .memoryOutOfBounds (some (0xF065#16 ||| (x.setWidth 16 <<< 8)))))

/-- 20_memory.md R58, R59 (the spec derives them): a byte MemWrite stored reads back, every other byte reads as before, and
MemWrite and MemRead answer exactly inside the bound of R55. -/
def Obligations.MemoryReadsBackWhatWasWritten : Prop :=
  ∀ (s : State) (a : Nat) (bytes : List Byte),
    ((s.memWrite a bytes).isSome = true ↔ bytes = [] ∨ a + bytes.length - 1 ≤ 4095) ∧
    (∀ n, (s.memRead a n).isSome = true ↔ n = 0 ∨ a + n - 1 ≤ 4095) ∧
    (∀ t, s.mem.wf = true → s.memWrite a bytes = some t →
      t.memRead a bytes.length = some bytes ∧ SameMemoryOutside a bytes.length s t)

/-- The model's memory is data: two memories in canonical form that read the same everywhere are the same list (log entry 12). -/
def Obligations.CanonicalMemoriesWithEqualBytesAreEqual : Prop :=
  ∀ m m' : Memory, m.wf = true → m'.wf = true → (∀ a, a < 4096 → m.byteAt a = m'.byteAt a) → m = m'

/-- 20_memory.md R62 (decision D11 of the spec): a store is seen by the next fetch. After an `Fx33` or an `Fx55` of any length inside
the bound, a fetch at any fetchable address, inside the block, across either of its ends or outside it, gives the word of the bytes
stored, and of the old bytes where none was stored. -/
def Obligations.StoresAreSeenByTheNextFetch : Prop :=
  (∀ (x : RegIdx) (s : State), s.mem.wf = true → s.i.toNat + 2 ≤ 4095 → ∃ t, exec (.ldB x) s = .next t ∧
    ∀ p : Word, p.toNat ≤ 4094 → ({ t with pc := p } : State).fetch =
      some (wordUnder s.mem s.indexBase
        [BitVec.ofNat 8 ((s.reg x).toNat / 100), BitVec.ofNat 8 ((s.reg x).toNat / 10 % 10), BitVec.ofNat 8 ((s.reg x).toNat % 10)]
        p.toNat)) ∧
  (∀ (x : RegIdx) (s : State), s.mem.wf = true → s.i.toNat + x.toNat ≤ 4095 → ∃ t, exec (.storeRegs x) s = .next t ∧
    ∀ p : Word, p.toNat ≤ 4094 → ({ t with pc := p } : State).fetch =
      some (wordUnder s.mem s.indexBase ((List.range (x.toNat + 1)).map fun j => s.reg (BitVec.ofNat 4 j)) p.toNat))

/-! ### The display (44_display.md) -/

/-- 44_display.md R140: `00E0` turns every cell off and changes nothing else but `pc`. -/
def Obligations.ClearScreenTurnsEveryCellOff : Prop :=
  ∀ s : State, ∃ t, exec .cls s = .next t ∧ (∀ r c, t.pixel r c = false) ∧ t.pc = s.pc + 2#16 ∧ SameRegs s t ∧
    SameMemory s t ∧ t.i = s.i ∧ SameStack s t ∧ SameTimers s t ∧ SameControl s t ∧ SameParameters s t

/-- 44_display.md R141 (decisions D4, D9, D19, D20 of the spec; the bit order is general knowledge, log entry 9): inside the
bound `Dxyn` inverts exactly the cells its set pixels fall on under the edge policy, with the old `V[x]` and `V[y]` as the
origin, sets VF to 1 exactly when a cell that was on is now off and to 0 otherwise, and changes nothing else but `pc`; past the
bound it raises MemoryOutOfBounds. -/
def Obligations.DrawInvertsTheCoveredCells : Prop :=
  (∀ (x y : RegIdx) (n : Nibble) (s : State), n = 0#4 ∨ s.i.toNat + n.toNat - 1 ≤ 4095 →
    ∃ t, exec (.drw x y n) s = .next t ∧
      (∀ r c, t.pixel r c ≠ s.pixel r c ↔
        SpriteCovers s.quirks.drawEdge (s.reg x).toNat (s.reg y).toNat
          ((List.range n.toNat).map fun j => s.mem.byteAt (s.i.toNat + j)) r.val c.val) ∧
      ((∃ r c, s.pixel r c = true ∧ t.pixel r c = false) → t.reg vf = 1#8) ∧
      ((∀ r c, s.pixel r c = true → t.pixel r c = true) → t.reg vf = 0#8) ∧
      SameRegsBut (· = vf) s t ∧ t.pc = s.pc + 2#16 ∧ SameMemory s t ∧ t.i = s.i ∧ SameStack s t ∧ SameTimers s t ∧
      SameControl s t ∧ SameParameters s t) ∧
  (∀ (x y : RegIdx) (n : Nibble) (s : State), n ≠ 0#4 → 4095 < s.i.toNat + n.toNat - 1 →
    exec (.drw x y n) s =
      .next (HaltedFrom s .memoryOutOfBounds
        (some (0xD000#16 ||| (x.setWidth 16 <<< 8) ||| (y.setWidth 16 <<< 4) ||| n.setWidth 16))))

/-- 44_display.md R141: "drawing the same sprite twice at the same place restores `fb`", where neither coordinate register is
VF, which the first draw overwrites. -/
def Obligations.DrawingTwiceRestoresTheScreen : Prop :=
  ∀ (x y : RegIdx) (n : Nibble) (s t : State), x ≠ vf → y ≠ vf → n = 0#4 ∨ s.i.toNat + n.toNat - 1 ≤ 4095 →
    exec (.drw x y n) s = .next t → ∃ u, exec (.drw x y n) t = .next u ∧ u.fb = s.fb

/-! ### Keypad and timers (45_keypad_timers.md) -/

/-- 45_keypad_timers.md R150, R151 (decision D17 of the spec): with `V[x]` a key index, `Ex9E` skips exactly when that key is
pressed and `ExA1` exactly when it is not, and nothing but `pc` changes; with `V[x]` above 15 both raise KeyIndexOutOfRange. -/
def Obligations.KeySkipsSampleTheKeypad : Prop :=
  (∀ (x : RegIdx) (s : State), (h : (s.reg x).toNat < 16) →
    (∃ t, exec (.skp x) s = .next t ∧ SameButPc s t ∧
      (s.keypad[(s.reg x).toNat]'h = true → t.pc = s.pc + 4#16) ∧
      (s.keypad[(s.reg x).toNat]'h = false → t.pc = s.pc + 2#16)) ∧
    (∃ t, exec (.sknp x) s = .next t ∧ SameButPc s t ∧
      (s.keypad[(s.reg x).toNat]'h = false → t.pc = s.pc + 4#16) ∧
      (s.keypad[(s.reg x).toNat]'h = true → t.pc = s.pc + 2#16))) ∧
  (∀ (x : RegIdx) (s : State), 15 < (s.reg x).toNat →
    exec (.skp x) s = .next (HaltedFrom s .keyIndexOutOfRange (some (0xE09E#16 ||| (x.setWidth 16 <<< 8)))) ∧
    exec (.sknp x) s = .next (HaltedFrom s .keyIndexOutOfRange (some (0xE0A1#16 ||| (x.setWidth 16 <<< 8)))))

/-- 45_keypad_timers.md R152, R154, R155: `Fx07` copies `DT` to `V[x]`, `Fx15` `V[x]` to `DT`, `Fx18` `V[x]` to `ST`, and the
tone is active exactly when the value written to `ST` is not 0; nothing else but `pc` changes. -/
def Obligations.TimerInstructionsCopyTheValue : Prop :=
  ∀ (x : RegIdx) (s : State),
    (∃ t, exec (.ldVxDT x) s = .next t ∧ t.reg x = s.dt ∧ SameRegsBut (· = x) s t ∧ t.pc = s.pc + 2#16 ∧
      SameButRegsPc s t) ∧
    (∃ t, exec (.ldDTVx x) s = .next t ∧ t.dt = s.reg x ∧ t.st = s.st ∧ t.pc = s.pc + 2#16 ∧ SameRegs s t ∧
      SameMemory s t ∧ t.i = s.i ∧ SameStack s t ∧ SameScreen s t ∧ SameControl s t ∧ SameParameters s t) ∧
    (∃ t, exec (.ldSTVx x) s = .next t ∧ t.st = s.reg x ∧ (t.toneActive = true ↔ s.reg x ≠ 0#8) ∧ t.dt = s.dt ∧
      t.pc = s.pc + 2#16 ∧ SameRegs s t ∧ SameMemory s t ∧ t.i = s.i ∧ SameStack s t ∧ SameScreen s t ∧ SameControl s t ∧
      SameParameters s t)

/-- 45_keypad_timers.md R153 (decision D12 of the spec): `Fx0A` sets `wait` to `Some(x)`, the core is BLOCKED with `pc` already
past the instruction, the STEP reports Blocked, and nothing else changes. -/
def Obligations.WaitForKeyBlocks : Prop :=
  ∀ (x : RegIdx) (s : State), ∃ t, exec (.ldVxK x) s = .next t ∧ t.wait = some x ∧ t.status = .blocked ∧
    t.result = .blocked ∧ t.pc = s.pc + 2#16 ∧ t.keypad = s.keypad ∧ SameRegs s t ∧ SameMemory s t ∧ t.i = s.i ∧
    SameStack s t ∧ SameTimers s t ∧ SameScreen s t ∧ SameParameters s t

/-! ### External events (60_exceptions.md) -/

/-- 60_exceptions.md R171 (decisions D16, D31 of the spec): TICK decrements `DT` and `ST` by 1 where they are not 0, in RUNNING and
in BLOCKED alike, changes nothing else, and does nothing in HALTED. -/
def Obligations.TickCountsBothTimersDown : Prop :=
  (∀ s : State, s.Safe → ∃ t, applyEvent .tick s = .next t ∧
    t.dt.toNat = s.dt.toNat - 1 ∧ t.st.toNat = s.st.toNat - 1 ∧ t.pc = s.pc ∧ SameRegs s t ∧ SameMemory s t ∧
    t.i = s.i ∧ SameStack s t ∧ SameScreen s t ∧ SameControl s t ∧ SameParameters s t) ∧
  (∀ (s : State) (e : ErrorRecord), s.status = .halted e → applyEvent .tick s = .next s)

/-- 60_exceptions.md R172: SET_KEY sets its keypad cell; a press edge while `wait = Some(x)` writes the key index to `V[x]`,
clears `wait` and returns to RUNNING; any other SET_KEY changes nothing but the cell; nothing changes in HALTED (decision D16 of the spec, log entry 10). -/
def Obligations.SetKeyResolvesTheWaitOnAPressEdge : Prop :=
  (∀ (k : Nibble) (pressed : Bool) (s : State), s.Safe → ∃ t, applyEvent (.setKey k pressed) s = .next t ∧
    t.key k = pressed ∧ (∀ j, j ≠ k → t.key j = s.key j) ∧
    (∀ x, pressed = true → s.key k = false → s.wait = some x →
      (t.reg x).toNat = k.toNat ∧ SameRegsBut (· = x) s t ∧ t.wait = none ∧ t.status = .running) ∧
    (pressed = false ∨ s.key k = true ∨ s.wait = none → SameRegs s t ∧ t.wait = s.wait ∧ t.status = s.status) ∧
    t.pc = s.pc ∧ SameMemory s t ∧ t.i = s.i ∧ SameStack s t ∧ SameTimers s t ∧ SameScreen s t ∧ SameParameters s t) ∧
  (∀ (k : Nibble) (pressed : Bool) (s : State) (e : ErrorRecord), s.status = .halted e →
    applyEvent (.setKey k pressed) s = .next s)

/-- 60_exceptions.md R173, R179: through any number of STEP, TICK and release events a BLOCKED core stays blocked with its wait,
its registers and its `pc`. -/
def Obligations.BlockedUntilAPressEvent : Prop :=
  ∀ (es : List Event) (s t : State), s.status = .blocked →
    (∀ e ∈ es, (∃ r, e = .step r) ∨ e = .tick ∨ (∃ k, e = .setKey k false)) →
    applyEvents es s = .next t → t.status = .blocked ∧ t.wait = s.wait ∧ SameRegs s t ∧ t.pc = s.pc ∧ SameMemory s t

/-- The source's key wait (95_test_vectors.md S9; 40_step_cycle.md R96, decisions D12, D16 of the spec): after `Fx0A` the core
reports Blocked, every STEP that follows, however many and with whatever bytes, changes nothing and so reports Blocked again, and the
press edge of a key puts its index in `V[x]` and unblocks the core at the next instruction. -/
def Obligations.KeyWaitEndsWithTheKeyIndex : Prop :=
  ∀ (x : RegIdx) (k : Nibble) (s t : State), exec (.ldVxK x) s = .next t → s.key k = false →
    t.status = .blocked ∧ t.result = .blocked ∧ step t = .next t ∧
    (∀ es : List Event, (∀ e ∈ es, ∃ r, e = .step r) → applyEvents es t = .next t) ∧
    ∃ u, applyEvent (.setKey k true) t = .next u ∧ (u.reg x).toNat = k.toNat ∧ u.wait = none ∧ u.status = .running ∧
      u.result = .ok ∧ u.pc = s.pc + 2#16

/-- 60_exceptions.md R168 (decision D16 of the spec): HALTED is absorbing: no sequence of events without RESET changes anything. -/
def Obligations.HaltedIsAbsorbing : Prop :=
  ∀ (es : List Event) (s : State) (e : ErrorRecord), s.status = .halted e →
    (∀ ev ∈ es, ∀ rom q font, ev ≠ .reset rom q font) → applyEvents es s = .next s

/-! ### Reset (70_reset_and_hazards.md) -/

/-- 10_state.md R34: the value of every piece of state after RESET, for any font and any ROM image of at most 3584 bytes, in any
status before it. -/
def Obligations.ResetValuesAreTheTable : Prop :=
  ∀ (rom : List Byte) (q : Quirks) (font : Vector Byte 80) (s : State), rom.length ≤ 3584 →
    ∃ t, applyEvent (.reset rom q font) s = .next t ∧
      (∀ a, (h : a < 80) → t.mem.byteAt a = font[a]'h) ∧
      (∀ a, 80 ≤ a → a < 512 → t.mem.byteAt a = 0#8) ∧
      (∀ j, (h : j < rom.length) → t.mem.byteAt (512 + j) = rom[j]'h) ∧
      (∀ a, 512 + rom.length ≤ a → a < 4096 → t.mem.byteAt a = 0#8) ∧
      (∀ r, t.reg r = 0#8) ∧ (∀ j, (h : j < 16) → t.stack[j]'h = 0#16) ∧ t.sp.val = 0 ∧ t.i = 0#16 ∧ t.pc = 512#16 ∧
      t.dt = 0#8 ∧ t.st = 0#8 ∧ (∀ r c, t.pixel r c = false) ∧ (∀ k, t.key k = false) ∧ t.wait = none ∧
      t.status = .running ∧ t.err = none

/-- 70_reset_and_hazards.md R190, 00_scope.md R6 (defaults: decisions D2 to D5; log entries 3, 4, 7): the state after reset is
RESET with an empty ROM image, the default profile and the default font, and RESET latches the profile it is given, which no
other event changes. -/
def Obligations.ResetLatchesTheQuirkProfile : Prop :=
  (∀ s : State, s.randIn = [] → s.draws = 0 →
    applyEvent (.reset [] Quirks.default defaultFont) s = .next State.reset) ∧
  (∀ (rom : List Byte) (q : Quirks) (font : Vector Byte 80) (s t : State),
    applyEvent (.reset rom q font) s = .next t → t.quirks = q) ∧
  (∀ (e : Event) (s t : State), (∀ rom q font, e ≠ .reset rom q font) → applyEvent e s = .next t → t.quirks = s.quirks)

/-- 70_reset_and_hazards.md R191 (decision D28 of the spec): a ROM image longer than 3584 bytes is refused, and no other event is
ever refused or faults. -/
def Obligations.OnlyOversizedImagesAreRefused : Prop :=
  ∀ (e : Event) (s : State),
    ((∃ rom q font, e = .reset rom q font ∧ 3584 < rom.length) → applyEvent e s = .refused .romTooLarge) ∧
    ((∀ rom q font, e = .reset rom q font → rom.length ≤ 3584) → ∃ t, applyEvent e s = .next t)

/-! ### Rules about the whole machine -/

/-- 10_state.md R20 ("written by"), R24 to R29: which instructions change which piece of state. -/
def Obligations.StateChangesOnlyByItsWriters : Prop :=
  ∀ (i : Instr) (s t : State), exec i s = .next t →
    (t.stack ≠ s.stack → ∃ nnn, i = .call nnn) ∧
    (t.sp ≠ s.sp → i = .ret ∨ ∃ nnn, i = .call nnn) ∧
    (t.i ≠ s.i → (∃ nnn, i = .ldI nnn) ∨ (∃ x, i = .addI x) ∨ (∃ x, i = .ldF x) ∨
      (s.quirks.indexAdvance = .advance ∧ ((∃ x, i = .storeRegs x) ∨ ∃ x, i = .loadRegs x))) ∧
    (t.dt ≠ s.dt → ∃ x, i = .ldDTVx x) ∧
    (t.st ≠ s.st → ∃ x, i = .ldSTVx x) ∧
    (¬ SameMemory s t → (∃ x, i = .ldB x) ∨ ∃ x, i = .storeRegs x) ∧
    (t.fb ≠ s.fb → i = .cls ∨ ∃ x y n, i = .drw x y n) ∧
    (t.wait ≠ s.wait → ∃ x, i = .ldVxK x) ∧
    (¬ SameParameters s t → ∃ x kk, i = .rnd x kk) ∧
    t.keypad = s.keypad ∧ t.quirks = s.quirks ∧
    (∀ r, t.reg r ≠ s.reg r → IsDestination i r ∨ (r = vf ∧ WritesFlag i))

/-- 70_reset_and_hazards.md R198 (the spec derives it): each quirk parameter matters only where that rule names it. Under two profiles
that agree on the parameters named for an instruction, and differ as they may in the others, it does the same; QUIRK_INDEX_ADVANCE
matters to `Fx55` and `Fx65` alone, and there only to the value of `I` afterwards. -/
def Obligations.QuirksMatterOnlyWhereNamed : Prop :=
  ∀ (i : Instr) (s : State) (q : Quirks),
    (NamesShiftSource i → q.shiftSource = s.quirks.shiftSource) →
    (NamesDrawEdge s i → q.drawEdge = s.quirks.drawEdge) →
    (NamesVfOrder i → q.vfOrder = s.quirks.vfOrder) →
    ∃ t a, exec i s = .next t ∧ exec i { s with quirks := q } = .next { t with quirks := q, i := a } ∧
      ((NamesIndexAdvance i → q.indexAdvance = s.quirks.indexAdvance) → a = t.i)

/-- 40_step_cycle.md R95 (decision D22 of the spec; log entry 5): an instruction other than `Cxkk` ignores the random byte. -/
def Obligations.RandomBytesMatterOnlyForRandom : Prop :=
  ∀ (i : Instr) (s : State) (l : List Byte) (k : Nat), (∀ x kk, i ≠ .rnd x kk) →
    ∃ t, exec i s = .next t ∧ exec i { s with randIn := l, draws := k } = .next { t with randIn := l, draws := k }

/-- The invariant holds in the state after reset (10_state.md R34, R35). -/
def Obligations.InvariantHoldsAtReset : Prop := State.reset.Inv

/-- The invariant is kept by every STEP: memory canonical, BLOCKED exactly when a wait stands, live return addresses at most 4096,
`pc` at most 0x10FE, and in HALTED `pc` at the offending instruction (10_state.md R30, R35; 41_control_flow.md R100). -/
def Obligations.EveryStepKeepsTheInvariant : Prop :=
  ∀ s t : State, s.Inv → step s = .next t → t.Inv

/-- The invariant is kept by every event in any interleaving (60_exceptions.md R170), so every state a run can reach from a RESET
has it. -/
def Obligations.EveryInterleavingKeepsTheInvariant : Prop :=
  ∀ (es : List Event) (s t : State), s.Inv → applyEvents es s = .next t → t.Inv
end

