-- ==== Sys2Proof/Laws/Memory.lean ====
section
/-! SUPPORT. Memory: every operation keeps the canonical form, a read after a write gives the value written, and a write leaves
every other address alone (20_memory.md R58, R59). -/

namespace Sys2Proof.Machine

theorem Memory.wfFrom_cons (lo : Nat) (c : Host.Cell) (m : Memory) :
    Memory.wfFrom lo (c :: m) = true ↔
      lo ≤ c.1 ∧ c.1 < 4096 ∧ c.2 ≠ Memory.unlisted c.1 ∧ Memory.wfFrom (c.1 + 1) m = true := by
  simp [Memory.wfFrom, and_assoc]

theorem Memory.wfFrom_mono {lo lo' : Nat} {m : Memory} (h : lo ≤ lo') (hm : Memory.wfFrom lo' m = true) :
    Memory.wfFrom lo m = true := by
  cases m with
  | nil => rfl
  | cons c m =>
    rw [Memory.wfFrom_cons] at hm ⊢
    exact ⟨h.trans hm.1, hm.2⟩

/-- An address below every listed one is unlisted. -/
theorem Memory.byteAt_below {lo a : Nat} {m : Memory} (hm : Memory.wfFrom lo m = true) (h : a < lo) :
    m.byteAt a = Memory.unlisted a := by
  induction m generalizing lo with
  | nil => rfl
  | cons c m ih =>
    rw [Memory.wfFrom_cons] at hm
    have hne : a ≠ c.1 := by omega
    simp only [Memory.byteAt, hne, if_false]
    exact ih hm.2.2.2 (by omega)

theorem Memory.wfFrom_put {lo a : Nat} {m : Memory} (b : Byte) (hm : Memory.wfFrom lo m = true) (hlo : lo ≤ a)
    (ha : a < 4096) : Memory.wfFrom lo (m.put a b) = true := by
  induction m generalizing lo with
  | nil =>
    unfold Memory.put; split
    · rfl
    · rename_i hb; rw [Memory.wfFrom_cons]; exact ⟨hlo, ha, hb, rfl⟩
  | cons c m ih =>
    have hm' := (Memory.wfFrom_cons lo c m).1 hm
    unfold Memory.put
    split
    · split
      · exact hm
      · rename_i hlt hb
        rw [Memory.wfFrom_cons]
        refine ⟨hlo, ha, hb, ?_⟩
        rw [Memory.wfFrom_cons]
        exact ⟨hlt, hm'.2⟩
    · split
      · rename_i heq
        split
        · exact Memory.wfFrom_mono (by omega) hm'.2.2.2
        · rename_i hb
          rw [Memory.wfFrom_cons]
          exact ⟨hlo, ha, hb, heq ▸ hm'.2.2.2⟩
      · rw [Memory.wfFrom_cons]
        exact ⟨hm'.1, hm'.2.1, hm'.2.2.1, ih hm'.2.2.2 (by omega)⟩

/-- Storing a byte keeps the canonical form. -/
theorem Memory.wf_put {a : Nat} {m : Memory} (b : Byte) (hm : m.wf = true) (ha : a < 4096) : (m.put a b).wf = true :=
  Memory.wfFrom_put b hm (Nat.zero_le a) ha

theorem Memory.byteAt_put_from {lo : Nat} {m : Memory} (hm : Memory.wfFrom lo m = true) (a c : Nat) (b : Byte) :
    (m.put a b).byteAt c = if c = a then b else m.byteAt c := by
  induction m generalizing lo with
  | nil =>
    unfold Memory.put
    split
    · rename_i hb
      simp only [Memory.byteAt]; split
      · subst_vars; rfl
      · rfl
    · simp [Memory.byteAt]
  | cons e m ih =>
    have hm' := (Memory.wfFrom_cons lo e m).1 hm
    unfold Memory.put
    split
    · rename_i hlt
      split
      · rename_i hb
        split
        · rename_i hc
          subst hc
          rw [hb]
          exact Memory.byteAt_below (lo := e.1) ((Memory.wfFrom_cons _ e m).2 ⟨Nat.le_refl _, hm'.2⟩) hlt
        · rfl
      · simp [Memory.byteAt]
    · split
      · rename_i heq
        split
        · rename_i hb
          split
          · rename_i hc
            subst hc
            rw [hb]
            exact Memory.byteAt_below hm'.2.2.2 (by omega)
          · rename_i hc
            have : c ≠ e.1 := by omega
            simp [Memory.byteAt, this]
        · by_cases hc : c = a
          · simp [Memory.byteAt, hc]
          · have : c ≠ e.1 := by omega
            simp [Memory.byteAt, hc, this]
      · rename_i hne
        have := ih hm'.2.2.2
        simp only [Memory.byteAt, this]
        by_cases hc : c = e.1
        · have : c ≠ a := by omega
          simp [hc]; omega
        · simp [hc]

/-- A read after a write of one byte. -/
theorem Memory.byteAt_put {m : Memory} (hm : m.wf = true) (a c : Nat) (b : Byte) :
    (m.put a b).byteAt c = if c = a then b else m.byteAt c := Memory.byteAt_put_from hm a c b

/-- Storing a list of bytes inside the 4096 keeps the canonical form. -/
theorem Memory.wf_putFrom {m : Memory} (bs : List Byte) {a : Nat} (hm : m.wf = true) (ha : a + bs.length ≤ 4096) :
    (m.putFrom a bs).wf = true := by
  induction bs generalizing m a with
  | nil => exact hm
  | cons b bs ih =>
    simp only [List.length_cons] at ha
    exact ih (Memory.wf_put b hm (by omega)) (by omega)

/-- A read outside the stored bytes. -/
theorem Memory.byteAt_putFrom_outside {m : Memory} (bs : List Byte) {a c : Nat} (hm : m.wf = true)
    (ha : a + bs.length ≤ 4096) (hc : c < a ∨ a + bs.length ≤ c) : (m.putFrom a bs).byteAt c = m.byteAt c := by
  induction bs generalizing m a with
  | nil => rfl
  | cons b bs ih =>
    simp only [List.length_cons] at ha hc
    have hne : c ≠ a := by omega
    show ((m.put a b).putFrom (a + 1) bs).byteAt c = _
    rw [ih (Memory.wf_put b hm (by omega)) (by omega) (by omega), Memory.byteAt_put hm, if_neg hne]

/-- A read of a stored byte. -/
theorem Memory.byteAt_putFrom {m : Memory} (bs : List Byte) {a j : Nat} (hm : m.wf = true)
    (ha : a + bs.length ≤ 4096) (hj : j < bs.length) : (m.putFrom a bs).byteAt (a + j) = bs[j] := by
  induction bs generalizing m a j with
  | nil => simp at hj
  | cons b bs ih =>
    simp only [List.length_cons] at ha hj
    show ((m.put a b).putFrom (a + 1) bs).byteAt (a + j) = _
    cases j with
    | zero =>
      rw [Memory.byteAt_putFrom_outside bs (Memory.wf_put b hm (by omega)) (by omega) (by omega), Memory.byteAt_put hm]
      simp
    | succ j =>
      have := ih (m := m.put a b) (a := a + 1) (j := j) (Memory.wf_put b hm (by omega)) (by omega) (by omega)
      rw [show a + (j + 1) = a + 1 + j by omega, this]
      rfl

/-- A read after a store of a block, at any address. -/
theorem Memory.byteAt_putFrom_eq {m : Memory} (bs : List Byte) {a : Nat} (c : Nat) (hm : m.wf = true) (ha : a + bs.length ≤ 4096) :
    (m.putFrom a bs).byteAt c = if a ≤ c ∧ c < a + bs.length then bs.getD (c - a) 0#8 else m.byteAt c := by
  split
  · rename_i h
    obtain ⟨j, rfl⟩ := Nat.exists_eq_add_of_le h.1
    have hj : j < bs.length := by omega
    rw [Memory.byteAt_putFrom bs hm ha hj]; simp [hj]
  · exact Memory.byteAt_putFrom_outside bs hm ha (by omega)

@[simp] theorem Memory.length_bytesFrom (m : Memory) (a n : Nat) : (m.bytesFrom a n).length = n := by
  induction n generalizing a with
  | zero => rfl
  | succ n ih => simp [Memory.bytesFrom, ih]

@[simp] theorem Memory.getElem_bytesFrom (m : Memory) (a n j : Nat) (h : j < (m.bytesFrom a n).length) :
    (m.bytesFrom a n)[j] = m.byteAt (a + j) := by
  induction n generalizing a j with
  | zero => simp at h
  | succ n ih =>
    cases j with
    | zero => rfl
    | succ j =>
      simp only [Memory.bytesFrom, List.getElem_cons_succ]
      rw [ih, show a + 1 + j = a + (j + 1) by omega]

/-- The bytes MemRead gives are the bytes at ascending addresses. -/
theorem Memory.bytesFrom_eq_map (m : Memory) (a n : Nat) : m.bytesFrom a n = (List.range n).map fun j => m.byteAt (a + j) := by
  apply List.ext_getElem <;> simp

/-- The reset memory is canonical. -/
theorem Memory.wf_reset : State.reset.mem.wf = true := rfl

end Sys2Proof.Machine
end

