-- ==== Sys2Proof/Laws/State.lean ====
section
/-! SUPPORT. One lemma for each field under each named update of the state, so that no proof unfolds a record update. -/

namespace Sys2Proof.Machine

variable (s : State)

@[simp] theorem State.setReg_v (x : RegIdx) (b : Byte) : (s.setReg x b).v = s.v.set x.toNat b x.isLt := rfl
@[simp] theorem State.setReg_i (x : RegIdx) (b : Byte) : (s.setReg x b).i = s.i := rfl
@[simp] theorem State.setReg_pc (x : RegIdx) (b : Byte) : (s.setReg x b).pc = s.pc := rfl
@[simp] theorem State.setReg_stack (x : RegIdx) (b : Byte) : (s.setReg x b).stack = s.stack := rfl
@[simp] theorem State.setReg_sp (x : RegIdx) (b : Byte) : (s.setReg x b).sp = s.sp := rfl
@[simp] theorem State.setReg_dt (x : RegIdx) (b : Byte) : (s.setReg x b).dt = s.dt := rfl
@[simp] theorem State.setReg_st (x : RegIdx) (b : Byte) : (s.setReg x b).st = s.st := rfl
@[simp] theorem State.setReg_mem (x : RegIdx) (b : Byte) : (s.setReg x b).mem = s.mem := rfl
@[simp] theorem State.setReg_fb (x : RegIdx) (b : Byte) : (s.setReg x b).fb = s.fb := rfl
@[simp] theorem State.setReg_keypad (x : RegIdx) (b : Byte) : (s.setReg x b).keypad = s.keypad := rfl
@[simp] theorem State.setReg_wait (x : RegIdx) (b : Byte) : (s.setReg x b).wait = s.wait := rfl
@[simp] theorem State.setReg_status (x : RegIdx) (b : Byte) : (s.setReg x b).status = s.status := rfl
@[simp] theorem State.setReg_quirks (x : RegIdx) (b : Byte) : (s.setReg x b).quirks = s.quirks := rfl
@[simp] theorem State.setReg_randIn (x : RegIdx) (b : Byte) : (s.setReg x b).randIn = s.randIn := rfl
@[simp] theorem State.setReg_draws (x : RegIdx) (b : Byte) : (s.setReg x b).draws = s.draws := rfl

@[simp] theorem State.setPc_v (a : Word) : (s.setPc a).v = s.v := rfl
@[simp] theorem State.setPc_i (a : Word) : (s.setPc a).i = s.i := rfl
@[simp] theorem State.setPc_pc (a : Word) : (s.setPc a).pc = a := rfl
@[simp] theorem State.setPc_stack (a : Word) : (s.setPc a).stack = s.stack := rfl
@[simp] theorem State.setPc_sp (a : Word) : (s.setPc a).sp = s.sp := rfl
@[simp] theorem State.setPc_dt (a : Word) : (s.setPc a).dt = s.dt := rfl
@[simp] theorem State.setPc_st (a : Word) : (s.setPc a).st = s.st := rfl
@[simp] theorem State.setPc_mem (a : Word) : (s.setPc a).mem = s.mem := rfl
@[simp] theorem State.setPc_fb (a : Word) : (s.setPc a).fb = s.fb := rfl
@[simp] theorem State.setPc_keypad (a : Word) : (s.setPc a).keypad = s.keypad := rfl
@[simp] theorem State.setPc_wait (a : Word) : (s.setPc a).wait = s.wait := rfl
@[simp] theorem State.setPc_status (a : Word) : (s.setPc a).status = s.status := rfl
@[simp] theorem State.setPc_quirks (a : Word) : (s.setPc a).quirks = s.quirks := rfl
@[simp] theorem State.setPc_randIn (a : Word) : (s.setPc a).randIn = s.randIn := rfl
@[simp] theorem State.setPc_draws (a : Word) : (s.setPc a).draws = s.draws := rfl

@[simp] theorem State.advance_v : s.advance.v = s.v := rfl
@[simp] theorem State.advance_i : s.advance.i = s.i := rfl
@[simp] theorem State.advance_pc : s.advance.pc = s.pc + 2#16 := rfl
@[simp] theorem State.advance_stack : s.advance.stack = s.stack := rfl
@[simp] theorem State.advance_sp : s.advance.sp = s.sp := rfl
@[simp] theorem State.advance_dt : s.advance.dt = s.dt := rfl
@[simp] theorem State.advance_st : s.advance.st = s.st := rfl
@[simp] theorem State.advance_mem : s.advance.mem = s.mem := rfl
@[simp] theorem State.advance_fb : s.advance.fb = s.fb := rfl
@[simp] theorem State.advance_keypad : s.advance.keypad = s.keypad := rfl
@[simp] theorem State.advance_wait : s.advance.wait = s.wait := rfl
@[simp] theorem State.advance_status : s.advance.status = s.status := rfl
@[simp] theorem State.advance_quirks : s.advance.quirks = s.quirks := rfl
@[simp] theorem State.advance_randIn : s.advance.randIn = s.randIn := rfl
@[simp] theorem State.advance_draws : s.advance.draws = s.draws := rfl

@[simp] theorem State.setIndex_v (a : Word) : (s.setIndex a).v = s.v := rfl
@[simp] theorem State.setIndex_i (a : Word) : (s.setIndex a).i = a := rfl
@[simp] theorem State.setIndex_pc (a : Word) : (s.setIndex a).pc = s.pc := rfl
@[simp] theorem State.setIndex_stack (a : Word) : (s.setIndex a).stack = s.stack := rfl
@[simp] theorem State.setIndex_sp (a : Word) : (s.setIndex a).sp = s.sp := rfl
@[simp] theorem State.setIndex_dt (a : Word) : (s.setIndex a).dt = s.dt := rfl
@[simp] theorem State.setIndex_st (a : Word) : (s.setIndex a).st = s.st := rfl
@[simp] theorem State.setIndex_mem (a : Word) : (s.setIndex a).mem = s.mem := rfl
@[simp] theorem State.setIndex_fb (a : Word) : (s.setIndex a).fb = s.fb := rfl
@[simp] theorem State.setIndex_keypad (a : Word) : (s.setIndex a).keypad = s.keypad := rfl
@[simp] theorem State.setIndex_wait (a : Word) : (s.setIndex a).wait = s.wait := rfl
@[simp] theorem State.setIndex_status (a : Word) : (s.setIndex a).status = s.status := rfl
@[simp] theorem State.setIndex_quirks (a : Word) : (s.setIndex a).quirks = s.quirks := rfl
@[simp] theorem State.setIndex_randIn (a : Word) : (s.setIndex a).randIn = s.randIn := rfl
@[simp] theorem State.setIndex_draws (a : Word) : (s.setIndex a).draws = s.draws := rfl

@[simp] theorem State.setDelay_v (b : Byte) : (s.setDelay b).v = s.v := rfl
@[simp] theorem State.setDelay_i (b : Byte) : (s.setDelay b).i = s.i := rfl
@[simp] theorem State.setDelay_pc (b : Byte) : (s.setDelay b).pc = s.pc := rfl
@[simp] theorem State.setDelay_stack (b : Byte) : (s.setDelay b).stack = s.stack := rfl
@[simp] theorem State.setDelay_sp (b : Byte) : (s.setDelay b).sp = s.sp := rfl
@[simp] theorem State.setDelay_dt (b : Byte) : (s.setDelay b).dt = b := rfl
@[simp] theorem State.setDelay_st (b : Byte) : (s.setDelay b).st = s.st := rfl
@[simp] theorem State.setDelay_mem (b : Byte) : (s.setDelay b).mem = s.mem := rfl
@[simp] theorem State.setDelay_fb (b : Byte) : (s.setDelay b).fb = s.fb := rfl
@[simp] theorem State.setDelay_keypad (b : Byte) : (s.setDelay b).keypad = s.keypad := rfl
@[simp] theorem State.setDelay_wait (b : Byte) : (s.setDelay b).wait = s.wait := rfl
@[simp] theorem State.setDelay_status (b : Byte) : (s.setDelay b).status = s.status := rfl
@[simp] theorem State.setDelay_quirks (b : Byte) : (s.setDelay b).quirks = s.quirks := rfl
@[simp] theorem State.setDelay_randIn (b : Byte) : (s.setDelay b).randIn = s.randIn := rfl
@[simp] theorem State.setDelay_draws (b : Byte) : (s.setDelay b).draws = s.draws := rfl

@[simp] theorem State.setSound_v (b : Byte) : (s.setSound b).v = s.v := rfl
@[simp] theorem State.setSound_i (b : Byte) : (s.setSound b).i = s.i := rfl
@[simp] theorem State.setSound_pc (b : Byte) : (s.setSound b).pc = s.pc := rfl
@[simp] theorem State.setSound_stack (b : Byte) : (s.setSound b).stack = s.stack := rfl
@[simp] theorem State.setSound_sp (b : Byte) : (s.setSound b).sp = s.sp := rfl
@[simp] theorem State.setSound_dt (b : Byte) : (s.setSound b).dt = s.dt := rfl
@[simp] theorem State.setSound_st (b : Byte) : (s.setSound b).st = b := rfl
@[simp] theorem State.setSound_mem (b : Byte) : (s.setSound b).mem = s.mem := rfl
@[simp] theorem State.setSound_fb (b : Byte) : (s.setSound b).fb = s.fb := rfl
@[simp] theorem State.setSound_keypad (b : Byte) : (s.setSound b).keypad = s.keypad := rfl
@[simp] theorem State.setSound_wait (b : Byte) : (s.setSound b).wait = s.wait := rfl
@[simp] theorem State.setSound_status (b : Byte) : (s.setSound b).status = s.status := rfl
@[simp] theorem State.setSound_quirks (b : Byte) : (s.setSound b).quirks = s.quirks := rfl
@[simp] theorem State.setSound_randIn (b : Byte) : (s.setSound b).randIn = s.randIn := rfl
@[simp] theorem State.setSound_draws (b : Byte) : (s.setSound b).draws = s.draws := rfl

@[simp] theorem State.raiseFatal_v (k : FatalKind) (o : Option Word) : (s.raiseFatal k o).v = s.v := rfl
@[simp] theorem State.raiseFatal_i (k : FatalKind) (o : Option Word) : (s.raiseFatal k o).i = s.i := rfl
@[simp] theorem State.raiseFatal_pc (k : FatalKind) (o : Option Word) : (s.raiseFatal k o).pc = s.pc := rfl
@[simp] theorem State.raiseFatal_stack (k : FatalKind) (o : Option Word) : (s.raiseFatal k o).stack = s.stack := rfl
@[simp] theorem State.raiseFatal_sp (k : FatalKind) (o : Option Word) : (s.raiseFatal k o).sp = s.sp := rfl
@[simp] theorem State.raiseFatal_dt (k : FatalKind) (o : Option Word) : (s.raiseFatal k o).dt = s.dt := rfl
@[simp] theorem State.raiseFatal_st (k : FatalKind) (o : Option Word) : (s.raiseFatal k o).st = s.st := rfl
@[simp] theorem State.raiseFatal_mem (k : FatalKind) (o : Option Word) : (s.raiseFatal k o).mem = s.mem := rfl
@[simp] theorem State.raiseFatal_fb (k : FatalKind) (o : Option Word) : (s.raiseFatal k o).fb = s.fb := rfl
@[simp] theorem State.raiseFatal_keypad (k : FatalKind) (o : Option Word) : (s.raiseFatal k o).keypad = s.keypad := rfl
@[simp] theorem State.raiseFatal_wait (k : FatalKind) (o : Option Word) : (s.raiseFatal k o).wait = s.wait := rfl
@[simp] theorem State.raiseFatal_status (k : FatalKind) (o : Option Word) : (s.raiseFatal k o).status = .halted ⟨k, o, s.pc⟩ := rfl
@[simp] theorem State.raiseFatal_quirks (k : FatalKind) (o : Option Word) : (s.raiseFatal k o).quirks = s.quirks := rfl
@[simp] theorem State.raiseFatal_randIn (k : FatalKind) (o : Option Word) : (s.raiseFatal k o).randIn = s.randIn := rfl
@[simp] theorem State.raiseFatal_draws (k : FatalKind) (o : Option Word) : (s.raiseFatal k o).draws = s.draws := rfl

@[simp] theorem State.clearScreen_v : s.clearScreen.v = s.v := rfl
@[simp] theorem State.clearScreen_i : s.clearScreen.i = s.i := rfl
@[simp] theorem State.clearScreen_pc : s.clearScreen.pc = s.pc := rfl
@[simp] theorem State.clearScreen_stack : s.clearScreen.stack = s.stack := rfl
@[simp] theorem State.clearScreen_sp : s.clearScreen.sp = s.sp := rfl
@[simp] theorem State.clearScreen_dt : s.clearScreen.dt = s.dt := rfl
@[simp] theorem State.clearScreen_st : s.clearScreen.st = s.st := rfl
@[simp] theorem State.clearScreen_mem : s.clearScreen.mem = s.mem := rfl
@[simp] theorem State.clearScreen_fb : s.clearScreen.fb = .replicate 32 (.replicate 64 false) := rfl
@[simp] theorem State.clearScreen_keypad : s.clearScreen.keypad = s.keypad := rfl
@[simp] theorem State.clearScreen_wait : s.clearScreen.wait = s.wait := rfl
@[simp] theorem State.clearScreen_status : s.clearScreen.status = s.status := rfl
@[simp] theorem State.clearScreen_quirks : s.clearScreen.quirks = s.quirks := rfl
@[simp] theorem State.clearScreen_randIn : s.clearScreen.randIn = s.randIn := rfl
@[simp] theorem State.clearScreen_draws : s.clearScreen.draws = s.draws := rfl

@[simp] theorem State.loadFromZero_v (bs : List Byte) : (s.loadFromZero bs).v = writeRegsFrom s.v 0 bs := rfl
@[simp] theorem State.loadFromZero_i (bs : List Byte) : (s.loadFromZero bs).i = s.i := rfl
@[simp] theorem State.loadFromZero_pc (bs : List Byte) : (s.loadFromZero bs).pc = s.pc := rfl
@[simp] theorem State.loadFromZero_stack (bs : List Byte) : (s.loadFromZero bs).stack = s.stack := rfl
@[simp] theorem State.loadFromZero_sp (bs : List Byte) : (s.loadFromZero bs).sp = s.sp := rfl
@[simp] theorem State.loadFromZero_dt (bs : List Byte) : (s.loadFromZero bs).dt = s.dt := rfl
@[simp] theorem State.loadFromZero_st (bs : List Byte) : (s.loadFromZero bs).st = s.st := rfl
@[simp] theorem State.loadFromZero_mem (bs : List Byte) : (s.loadFromZero bs).mem = s.mem := rfl
@[simp] theorem State.loadFromZero_fb (bs : List Byte) : (s.loadFromZero bs).fb = s.fb := rfl
@[simp] theorem State.loadFromZero_keypad (bs : List Byte) : (s.loadFromZero bs).keypad = s.keypad := rfl
@[simp] theorem State.loadFromZero_wait (bs : List Byte) : (s.loadFromZero bs).wait = s.wait := rfl
@[simp] theorem State.loadFromZero_status (bs : List Byte) : (s.loadFromZero bs).status = s.status := rfl
@[simp] theorem State.loadFromZero_quirks (bs : List Byte) : (s.loadFromZero bs).quirks = s.quirks := rfl
@[simp] theorem State.loadFromZero_randIn (bs : List Byte) : (s.loadFromZero bs).randIn = s.randIn := rfl
@[simp] theorem State.loadFromZero_draws (bs : List Byte) : (s.loadFromZero bs).draws = s.draws := rfl

@[simp] theorem State.beginWait_v (x : RegIdx) : (s.beginWait x).v = s.v := rfl
@[simp] theorem State.beginWait_i (x : RegIdx) : (s.beginWait x).i = s.i := rfl
@[simp] theorem State.beginWait_pc (x : RegIdx) : (s.beginWait x).pc = s.pc := rfl
@[simp] theorem State.beginWait_stack (x : RegIdx) : (s.beginWait x).stack = s.stack := rfl
@[simp] theorem State.beginWait_sp (x : RegIdx) : (s.beginWait x).sp = s.sp := rfl
@[simp] theorem State.beginWait_dt (x : RegIdx) : (s.beginWait x).dt = s.dt := rfl
@[simp] theorem State.beginWait_st (x : RegIdx) : (s.beginWait x).st = s.st := rfl
@[simp] theorem State.beginWait_mem (x : RegIdx) : (s.beginWait x).mem = s.mem := rfl
@[simp] theorem State.beginWait_fb (x : RegIdx) : (s.beginWait x).fb = s.fb := rfl
@[simp] theorem State.beginWait_keypad (x : RegIdx) : (s.beginWait x).keypad = s.keypad := rfl
@[simp] theorem State.beginWait_wait (x : RegIdx) : (s.beginWait x).wait = some x := rfl
@[simp] theorem State.beginWait_status (x : RegIdx) : (s.beginWait x).status = .blocked := rfl
@[simp] theorem State.beginWait_quirks (x : RegIdx) : (s.beginWait x).quirks = s.quirks := rfl
@[simp] theorem State.beginWait_randIn (x : RegIdx) : (s.beginWait x).randIn = s.randIn := rfl
@[simp] theorem State.beginWait_draws (x : RegIdx) : (s.beginWait x).draws = s.draws := rfl

@[simp] theorem State.endWait_v : s.endWait.v = s.v := rfl
@[simp] theorem State.endWait_i : s.endWait.i = s.i := rfl
@[simp] theorem State.endWait_pc : s.endWait.pc = s.pc := rfl
@[simp] theorem State.endWait_stack : s.endWait.stack = s.stack := rfl
@[simp] theorem State.endWait_sp : s.endWait.sp = s.sp := rfl
@[simp] theorem State.endWait_dt : s.endWait.dt = s.dt := rfl
@[simp] theorem State.endWait_st : s.endWait.st = s.st := rfl
@[simp] theorem State.endWait_mem : s.endWait.mem = s.mem := rfl
@[simp] theorem State.endWait_fb : s.endWait.fb = s.fb := rfl
@[simp] theorem State.endWait_keypad : s.endWait.keypad = s.keypad := rfl
@[simp] theorem State.endWait_wait : s.endWait.wait = none := rfl
@[simp] theorem State.endWait_status : s.endWait.status = .running := rfl
@[simp] theorem State.endWait_quirks : s.endWait.quirks = s.quirks := rfl
@[simp] theorem State.endWait_randIn : s.endWait.randIn = s.randIn := rfl
@[simp] theorem State.endWait_draws : s.endWait.draws = s.draws := rfl

@[simp] theorem State.setKeyCell_v (k : Nibble) (p : Bool) : (s.setKeyCell k p).v = s.v := rfl
@[simp] theorem State.setKeyCell_i (k : Nibble) (p : Bool) : (s.setKeyCell k p).i = s.i := rfl
@[simp] theorem State.setKeyCell_pc (k : Nibble) (p : Bool) : (s.setKeyCell k p).pc = s.pc := rfl
@[simp] theorem State.setKeyCell_stack (k : Nibble) (p : Bool) : (s.setKeyCell k p).stack = s.stack := rfl
@[simp] theorem State.setKeyCell_sp (k : Nibble) (p : Bool) : (s.setKeyCell k p).sp = s.sp := rfl
@[simp] theorem State.setKeyCell_dt (k : Nibble) (p : Bool) : (s.setKeyCell k p).dt = s.dt := rfl
@[simp] theorem State.setKeyCell_st (k : Nibble) (p : Bool) : (s.setKeyCell k p).st = s.st := rfl
@[simp] theorem State.setKeyCell_mem (k : Nibble) (p : Bool) : (s.setKeyCell k p).mem = s.mem := rfl
@[simp] theorem State.setKeyCell_fb (k : Nibble) (p : Bool) : (s.setKeyCell k p).fb = s.fb := rfl
@[simp] theorem State.setKeyCell_keypad (k : Nibble) (p : Bool) : (s.setKeyCell k p).keypad = s.keypad.set k.toNat p k.isLt := rfl
@[simp] theorem State.setKeyCell_wait (k : Nibble) (p : Bool) : (s.setKeyCell k p).wait = s.wait := rfl
@[simp] theorem State.setKeyCell_status (k : Nibble) (p : Bool) : (s.setKeyCell k p).status = s.status := rfl
@[simp] theorem State.setKeyCell_quirks (k : Nibble) (p : Bool) : (s.setKeyCell k p).quirks = s.quirks := rfl
@[simp] theorem State.setKeyCell_randIn (k : Nibble) (p : Bool) : (s.setKeyCell k p).randIn = s.randIn := rfl
@[simp] theorem State.setKeyCell_draws (k : Nibble) (p : Bool) : (s.setKeyCell k p).draws = s.draws := rfl

/-! ### Updates that depend on a condition: the fields they never touch -/

@[simp] theorem State.skipIf_v (c : Bool) : (s.skipIf c).v = s.v := by unfold State.skipIf; split <;> rfl
@[simp] theorem State.skipIf_i (c : Bool) : (s.skipIf c).i = s.i := by unfold State.skipIf; split <;> rfl
@[simp] theorem State.skipIf_stack (c : Bool) : (s.skipIf c).stack = s.stack := by unfold State.skipIf; split <;> rfl
@[simp] theorem State.skipIf_sp (c : Bool) : (s.skipIf c).sp = s.sp := by unfold State.skipIf; split <;> rfl
@[simp] theorem State.skipIf_dt (c : Bool) : (s.skipIf c).dt = s.dt := by unfold State.skipIf; split <;> rfl
@[simp] theorem State.skipIf_st (c : Bool) : (s.skipIf c).st = s.st := by unfold State.skipIf; split <;> rfl
@[simp] theorem State.skipIf_mem (c : Bool) : (s.skipIf c).mem = s.mem := by unfold State.skipIf; split <;> rfl
@[simp] theorem State.skipIf_fb (c : Bool) : (s.skipIf c).fb = s.fb := by unfold State.skipIf; split <;> rfl
@[simp] theorem State.skipIf_keypad (c : Bool) : (s.skipIf c).keypad = s.keypad := by unfold State.skipIf; split <;> rfl
@[simp] theorem State.skipIf_wait (c : Bool) : (s.skipIf c).wait = s.wait := by unfold State.skipIf; split <;> rfl
@[simp] theorem State.skipIf_status (c : Bool) : (s.skipIf c).status = s.status := by unfold State.skipIf; split <;> rfl
@[simp] theorem State.skipIf_quirks (c : Bool) : (s.skipIf c).quirks = s.quirks := by unfold State.skipIf; split <;> rfl
@[simp] theorem State.skipIf_randIn (c : Bool) : (s.skipIf c).randIn = s.randIn := by unfold State.skipIf; split <;> rfl
@[simp] theorem State.skipIf_draws (c : Bool) : (s.skipIf c).draws = s.draws := by unfold State.skipIf; split <;> rfl

@[simp] theorem State.writeResultAndFlag_i (x : RegIdx) (b : Byte) (c : Bool) : (s.writeResultAndFlag x b c).i = s.i := by unfold State.writeResultAndFlag; split <;> rfl
@[simp] theorem State.writeResultAndFlag_pc (x : RegIdx) (b : Byte) (c : Bool) : (s.writeResultAndFlag x b c).pc = s.pc := by unfold State.writeResultAndFlag; split <;> rfl
@[simp] theorem State.writeResultAndFlag_stack (x : RegIdx) (b : Byte) (c : Bool) : (s.writeResultAndFlag x b c).stack = s.stack := by unfold State.writeResultAndFlag; split <;> rfl
@[simp] theorem State.writeResultAndFlag_sp (x : RegIdx) (b : Byte) (c : Bool) : (s.writeResultAndFlag x b c).sp = s.sp := by unfold State.writeResultAndFlag; split <;> rfl
@[simp] theorem State.writeResultAndFlag_dt (x : RegIdx) (b : Byte) (c : Bool) : (s.writeResultAndFlag x b c).dt = s.dt := by unfold State.writeResultAndFlag; split <;> rfl
@[simp] theorem State.writeResultAndFlag_st (x : RegIdx) (b : Byte) (c : Bool) : (s.writeResultAndFlag x b c).st = s.st := by unfold State.writeResultAndFlag; split <;> rfl
@[simp] theorem State.writeResultAndFlag_mem (x : RegIdx) (b : Byte) (c : Bool) : (s.writeResultAndFlag x b c).mem = s.mem := by unfold State.writeResultAndFlag; split <;> rfl
@[simp] theorem State.writeResultAndFlag_fb (x : RegIdx) (b : Byte) (c : Bool) : (s.writeResultAndFlag x b c).fb = s.fb := by unfold State.writeResultAndFlag; split <;> rfl
@[simp] theorem State.writeResultAndFlag_keypad (x : RegIdx) (b : Byte) (c : Bool) : (s.writeResultAndFlag x b c).keypad = s.keypad := by unfold State.writeResultAndFlag; split <;> rfl
@[simp] theorem State.writeResultAndFlag_wait (x : RegIdx) (b : Byte) (c : Bool) : (s.writeResultAndFlag x b c).wait = s.wait := by unfold State.writeResultAndFlag; split <;> rfl
@[simp] theorem State.writeResultAndFlag_status (x : RegIdx) (b : Byte) (c : Bool) : (s.writeResultAndFlag x b c).status = s.status := by unfold State.writeResultAndFlag; split <;> rfl
@[simp] theorem State.writeResultAndFlag_quirks (x : RegIdx) (b : Byte) (c : Bool) : (s.writeResultAndFlag x b c).quirks = s.quirks := by unfold State.writeResultAndFlag; split <;> rfl
@[simp] theorem State.writeResultAndFlag_randIn (x : RegIdx) (b : Byte) (c : Bool) : (s.writeResultAndFlag x b c).randIn = s.randIn := by unfold State.writeResultAndFlag; split <;> rfl
@[simp] theorem State.writeResultAndFlag_draws (x : RegIdx) (b : Byte) (c : Bool) : (s.writeResultAndFlag x b c).draws = s.draws := by unfold State.writeResultAndFlag; split <;> rfl

@[simp] theorem State.advanceIndex_v (x : RegIdx) : (s.advanceIndex x).v = s.v := by unfold State.advanceIndex; split <;> rfl
@[simp] theorem State.advanceIndex_pc (x : RegIdx) : (s.advanceIndex x).pc = s.pc := by unfold State.advanceIndex; split <;> rfl
@[simp] theorem State.advanceIndex_stack (x : RegIdx) : (s.advanceIndex x).stack = s.stack := by unfold State.advanceIndex; split <;> rfl
@[simp] theorem State.advanceIndex_sp (x : RegIdx) : (s.advanceIndex x).sp = s.sp := by unfold State.advanceIndex; split <;> rfl
@[simp] theorem State.advanceIndex_dt (x : RegIdx) : (s.advanceIndex x).dt = s.dt := by unfold State.advanceIndex; split <;> rfl
@[simp] theorem State.advanceIndex_st (x : RegIdx) : (s.advanceIndex x).st = s.st := by unfold State.advanceIndex; split <;> rfl
@[simp] theorem State.advanceIndex_mem (x : RegIdx) : (s.advanceIndex x).mem = s.mem := by unfold State.advanceIndex; split <;> rfl
@[simp] theorem State.advanceIndex_fb (x : RegIdx) : (s.advanceIndex x).fb = s.fb := by unfold State.advanceIndex; split <;> rfl
@[simp] theorem State.advanceIndex_keypad (x : RegIdx) : (s.advanceIndex x).keypad = s.keypad := by unfold State.advanceIndex; split <;> rfl
@[simp] theorem State.advanceIndex_wait (x : RegIdx) : (s.advanceIndex x).wait = s.wait := by unfold State.advanceIndex; split <;> rfl
@[simp] theorem State.advanceIndex_status (x : RegIdx) : (s.advanceIndex x).status = s.status := by unfold State.advanceIndex; split <;> rfl
@[simp] theorem State.advanceIndex_quirks (x : RegIdx) : (s.advanceIndex x).quirks = s.quirks := by unfold State.advanceIndex; split <;> rfl
@[simp] theorem State.advanceIndex_randIn (x : RegIdx) : (s.advanceIndex x).randIn = s.randIn := by unfold State.advanceIndex; split <;> rfl
@[simp] theorem State.advanceIndex_draws (x : RegIdx) : (s.advanceIndex x).draws = s.draws := by unfold State.advanceIndex; split <;> rfl

@[simp] theorem State.dropRandom_v : s.dropRandom.v = s.v := by unfold State.dropRandom; split <;> rfl
@[simp] theorem State.dropRandom_i : s.dropRandom.i = s.i := by unfold State.dropRandom; split <;> rfl
@[simp] theorem State.dropRandom_pc : s.dropRandom.pc = s.pc := by unfold State.dropRandom; split <;> rfl
@[simp] theorem State.dropRandom_stack : s.dropRandom.stack = s.stack := by unfold State.dropRandom; split <;> rfl
@[simp] theorem State.dropRandom_sp : s.dropRandom.sp = s.sp := by unfold State.dropRandom; split <;> rfl
@[simp] theorem State.dropRandom_dt : s.dropRandom.dt = s.dt := by unfold State.dropRandom; split <;> rfl
@[simp] theorem State.dropRandom_st : s.dropRandom.st = s.st := by unfold State.dropRandom; split <;> rfl
@[simp] theorem State.dropRandom_mem : s.dropRandom.mem = s.mem := by unfold State.dropRandom; split <;> rfl
@[simp] theorem State.dropRandom_fb : s.dropRandom.fb = s.fb := by unfold State.dropRandom; split <;> rfl
@[simp] theorem State.dropRandom_keypad : s.dropRandom.keypad = s.keypad := by unfold State.dropRandom; split <;> rfl
@[simp] theorem State.dropRandom_wait : s.dropRandom.wait = s.wait := by unfold State.dropRandom; split <;> rfl
@[simp] theorem State.dropRandom_status : s.dropRandom.status = s.status := by unfold State.dropRandom; split <;> rfl
@[simp] theorem State.dropRandom_quirks : s.dropRandom.quirks = s.quirks := by unfold State.dropRandom; split <;> rfl

@[simp] theorem State.drawSprite_i (a b : Byte) (l : List Byte) : (s.drawSprite a b l).i = s.i := rfl
@[simp] theorem State.drawSprite_pc (a b : Byte) (l : List Byte) : (s.drawSprite a b l).pc = s.pc := rfl
@[simp] theorem State.drawSprite_stack (a b : Byte) (l : List Byte) : (s.drawSprite a b l).stack = s.stack := rfl
@[simp] theorem State.drawSprite_sp (a b : Byte) (l : List Byte) : (s.drawSprite a b l).sp = s.sp := rfl
@[simp] theorem State.drawSprite_dt (a b : Byte) (l : List Byte) : (s.drawSprite a b l).dt = s.dt := rfl
@[simp] theorem State.drawSprite_st (a b : Byte) (l : List Byte) : (s.drawSprite a b l).st = s.st := rfl
@[simp] theorem State.drawSprite_mem (a b : Byte) (l : List Byte) : (s.drawSprite a b l).mem = s.mem := rfl
@[simp] theorem State.drawSprite_keypad (a b : Byte) (l : List Byte) : (s.drawSprite a b l).keypad = s.keypad := rfl
@[simp] theorem State.drawSprite_wait (a b : Byte) (l : List Byte) : (s.drawSprite a b l).wait = s.wait := rfl
@[simp] theorem State.drawSprite_status (a b : Byte) (l : List Byte) : (s.drawSprite a b l).status = s.status := rfl
@[simp] theorem State.drawSprite_quirks (a b : Byte) (l : List Byte) : (s.drawSprite a b l).quirks = s.quirks := rfl
@[simp] theorem State.drawSprite_randIn (a b : Byte) (l : List Byte) : (s.drawSprite a b l).randIn = s.randIn := rfl
@[simp] theorem State.drawSprite_draws (a b : Byte) (l : List Byte) : (s.drawSprite a b l).draws = s.draws := rfl

end Sys2Proof.Machine
end

