-- ==== Sys2Proof/Laws/Ops.lean ====
section
/-! SUPPORT. What each shared operation can do, said once: the provers cite these lemmas and do not unfold the operations. -/

namespace Sys2Proof.Machine

variable (s : State)

/-! ### Registers -/

/-- Reading a register depends on the register file alone. -/
theorem State.reg_congr {s t : State} (h : s.v = t.v) (x : RegIdx) : s.reg x = t.reg x := by
  unfold State.reg; simp only [h]

theorem State.reg_setReg (x r : RegIdx) (b : Byte) : (s.setReg x b).reg r = if r = x then b else s.reg r := by
  have hx : x.toNat < 16 := x.isLt
  have hr : r.toNat < 16 := r.isLt
  unfold State.reg
  simp only [State.setReg_v, Vector.getElem_set]
  by_cases h : r = x
  · simp [h]
  · have : x.toNat ≠ r.toNat := fun e => h (BitVec.eq_of_toNat_eq e.symm)
    simp [h, this]

@[simp] theorem State.reg_setReg_same (x : RegIdx) (b : Byte) : (s.setReg x b).reg x = b := by simp [State.reg_setReg]

theorem State.reg_setReg_ne {x r : RegIdx} (h : r ≠ x) (b : Byte) : (s.setReg x b).reg r = s.reg r := by
  simp [State.reg_setReg, h]

@[simp] theorem State.reg_setPc (a : Word) (r : RegIdx) : (s.setPc a).reg r = s.reg r := rfl
@[simp] theorem State.reg_advance (r : RegIdx) : s.advance.reg r = s.reg r := rfl
@[simp] theorem State.reg_setIndex (a : Word) (r : RegIdx) : (s.setIndex a).reg r = s.reg r := rfl
@[simp] theorem State.reg_setDelay (b : Byte) (r : RegIdx) : (s.setDelay b).reg r = s.reg r := rfl
@[simp] theorem State.reg_setSound (b : Byte) (r : RegIdx) : (s.setSound b).reg r = s.reg r := rfl
@[simp] theorem State.reg_clearScreen (r : RegIdx) : s.clearScreen.reg r = s.reg r := rfl
@[simp] theorem State.reg_beginWait (x r : RegIdx) : (s.beginWait x).reg r = s.reg r := rfl
@[simp] theorem State.reg_endWait (r : RegIdx) : s.endWait.reg r = s.reg r := rfl
@[simp] theorem State.reg_setKeyCell (k : Nibble) (p : Bool) (r : RegIdx) : (s.setKeyCell k p).reg r = s.reg r := rfl
@[simp] theorem State.reg_raiseFatal (k : FatalKind) (o : Option Word) (r : RegIdx) : (s.raiseFatal k o).reg r = s.reg r := rfl
@[simp] theorem State.reg_skipIf (c : Bool) (r : RegIdx) : (s.skipIf c).reg r = s.reg r := State.reg_congr (by simp) r
@[simp] theorem State.reg_advanceIndex (x r : RegIdx) : (s.advanceIndex x).reg r = s.reg r := State.reg_congr (by simp) r
@[simp] theorem State.reg_dropRandom (r : RegIdx) : s.dropRandom.reg r = s.reg r := State.reg_congr (by simp) r

/-- The two writes of a flag-writing ALU instruction (40_step_cycle.md R97). -/
theorem State.reg_writeResultAndFlag (x r : RegIdx) (b : Byte) (f : Bool) :
    (s.writeResultAndFlag x b f).reg r =
      if r = x ∧ (x ≠ vf ∨ s.quirks.vfOrder = .resultLast) then b
      else if r = vf then flagByte f
      else s.reg r := by
  unfold State.writeResultAndFlag
  cases h : s.quirks.vfOrder <;> simp only [State.reg_setReg] <;> by_cases hx : r = x <;> by_cases hv : r = vf <;> simp_all

/-- Where `x` is not VF the two writes commute, so QUIRK_VF_ORDER does not matter (40_step_cycle.md R97). -/
theorem State.writeResultAndFlag_of_ne {s : State} {x : RegIdx} (h : x ≠ vf) (b : Byte) (f : Bool) :
    s.writeResultAndFlag x b f = (s.setReg x b).setReg vf (flagByte f) := by
  unfold State.writeResultAndFlag
  cases s.quirks.vfOrder with
  | flagLast => rfl
  | resultLast =>
    have hx : x.toNat ≠ 15 := fun e => h (BitVec.eq_of_toNat_eq e)
    unfold State.setReg
    simp only
    congr 1
    apply Vector.ext
    intro j hj
    have hv : vf.toNat = 15 := rfl
    simp only [Vector.getElem_set, hv]
    by_cases h1 : x.toNat = j <;> by_cases h2 : 15 = j <;> simp [h1, h2]
    omega

/-- A shift with `x` = `y` reads the same register under both values of QUIRK_SHIFT_SOURCE (42_alu.md R118, R120). -/
@[simp] theorem State.shiftOperand_self (x : RegIdx) : s.shiftOperand x x = s.reg x := by
  unfold State.shiftOperand; cases s.quirks.shiftSource <;> rfl

/-- `V[0]`..`V[x]` as a list. -/
theorem State.length_regsUpTo (x : RegIdx) : (s.regsUpTo x).length = x.toNat + 1 := by
  have : x.toNat < 16 := x.isLt
  simp [State.regsUpTo]; omega

theorem State.getElem_regsUpTo (x r : RegIdx) (h : r.toNat < (s.regsUpTo x).length) : (s.regsUpTo x)[r.toNat] = s.reg r := by
  simp [State.regsUpTo, State.reg]

/-- A block register write: the registers from `j` take the bytes, the others stay. -/
theorem getElem_writeRegsFrom (bs : List Byte) (v : Vector Byte 16) (j r : Nat) (hr : r < 16) :
    (writeRegsFrom v j bs)[r] = if h : j ≤ r ∧ r < j + bs.length then bs[r - j]'(by omega) else v[r] := by
  induction bs generalizing v j with
  | nil =>
    have : ¬ (j ≤ r ∧ r < j + ([] : List Byte).length) := by simp
    rw [dif_neg this]; rfl
  | cons b bs ih =>
    show (writeRegsFrom (v.setIfInBounds j b) (j + 1) bs)[r] = _
    rw [ih]
    by_cases h1 : j + 1 ≤ r ∧ r < j + 1 + bs.length
    · have h2 : j ≤ r ∧ r < j + (b :: bs).length := by simp; omega
      have h3 : r - j = (r - (j + 1)) + 1 := by omega
      rw [dif_pos h1, dif_pos h2]
      simp [h3]
    · rw [dif_neg h1]
      by_cases h4 : j = r
      · subst h4; simp
      · have h5 : ¬ (j ≤ r ∧ r < j + (b :: bs).length) := by simp; omega
        rw [dif_neg h5]
        simp [h4]

theorem State.reg_loadFromZero (bs : List Byte) (r : RegIdx) :
    (s.loadFromZero bs).reg r = if h : r.toNat < bs.length then bs[r.toNat] else s.reg r := by
  have hr : r.toNat < 16 := r.isLt
  show (writeRegsFrom s.v 0 bs)[r.toNat] = _
  rw [getElem_writeRegsFrom]
  by_cases h : r.toNat < bs.length
  · simp [h]
  · simp [h]; rfl

/-! ### The program counter -/

theorem State.skipIf_pc (c : Bool) : (s.skipIf c).pc = if c then s.pc + 2#16 else s.pc := by
  cases c <;> rfl

/-! ### The index register and the random byte -/

/-- `I` after a block transfer (43_index_memory.md R134, R135). -/
theorem State.advanceIndex_i (x : RegIdx) :
    (s.advanceIndex x).i =
      match s.quirks.indexAdvance with
      | .unchanged => s.i
      | .advance => s.i + BitVec.ofNat 16 (x.toNat + 1) := by
  unfold State.advanceIndex; cases s.quirks.indexAdvance <;> rfl

theorem State.randomByte_cons {s : State} {b : Byte} {bs : List Byte} (h : s.randIn = b :: bs) : s.randomByte = b := by
  simp [State.randomByte, h]

theorem State.randomByte_nil {s : State} (h : s.randIn = []) : s.randomByte = Config.randomByte s.draws := by
  simp [State.randomByte, h]

theorem State.dropRandom_cons {s : State} {b : Byte} {bs : List Byte} (h : s.randIn = b :: bs) :
    s.dropRandom = { s with randIn := bs } := by
  simp [State.dropRandom, h]

theorem State.dropRandom_nil {s : State} (h : s.randIn = []) : s.dropRandom = { s with draws := s.draws + 1 } := by
  simp [State.dropRandom, h]

/-! ### A check that may fail -/

@[simp] theorem State.orRaise_some (k : FatalKind) (i : Instr) (t : State) : s.orRaise k i (some t) = t := rfl

@[simp] theorem State.orRaise_none (k : FatalKind) (i : Instr) : s.orRaise k i none = s.raiseFatal k (some (encode i)) := rfl

/-- Everything an instruction with one check can do: its effect, or the entry of its fatal condition. -/
theorem State.orRaise_cases (k : FatalKind) (i : Instr) (e : Option State) :
    (∃ t, e = some t ∧ s.orRaise k i e = t) ∨ (e = none ∧ s.orRaise k i e = s.raiseFatal k (some (encode i))) := by
  cases e with
  | some t => exact .inl ⟨t, rfl, rfl⟩
  | none => exact .inr ⟨rfl, rfl⟩

/-! ### Memory -/

theorem Memory.inBounds_iff (a n : Nat) : Memory.inBounds a n = true ↔ n = 0 ∨ a + n - 1 ≤ 4095 := by
  simp [Memory.inBounds]

theorem State.memRead_some {a n : Nat} (h : n = 0 ∨ a + n - 1 ≤ 4095) : s.memRead a n = some (s.mem.bytesFrom a n) := by
  unfold State.memRead; rw [if_pos ((Memory.inBounds_iff a n).2 h)]

theorem State.memRead_none {a n : Nat} (h : ¬ (n = 0 ∨ a + n - 1 ≤ 4095)) : s.memRead a n = none := by
  unfold State.memRead; rw [if_neg (fun e => h ((Memory.inBounds_iff a n).1 e))]

theorem State.memWrite_some {a : Nat} {bs : List Byte} (h : bs.length = 0 ∨ a + bs.length - 1 ≤ 4095) :
    s.memWrite a bs = some { s with mem := s.mem.putFrom a bs } := by
  unfold State.memWrite; rw [if_pos ((Memory.inBounds_iff a bs.length).2 h)]

theorem State.memWrite_none {a : Nat} {bs : List Byte} (h : ¬ (bs.length = 0 ∨ a + bs.length - 1 ≤ 4095)) :
    s.memWrite a bs = none := by
  unfold State.memWrite; rw [if_neg (fun e => h ((Memory.inBounds_iff a bs.length).1 e))]

theorem State.fetch_some {s : State} (h : s.pc.toNat ≤ 4094) :
    s.fetch = some (wordOfBytes (s.mem.byteAt s.pc.toNat) (s.mem.byteAt (s.pc.toNat + 1))) := by
  unfold State.fetch; rw [if_neg (by omega)]

theorem State.fetch_none {s : State} (h : 4094 < s.pc.toNat) : s.fetch = none := by
  unfold State.fetch; rw [if_pos h]

/-- The word of two bytes as a number: big-endian (20_memory.md R52). -/
theorem toNat_wordOfBytes (hi lo : Byte) : (wordOfBytes hi lo).toNat = hi.toNat * 256 + lo.toNat := by
  have h := lo.isLt
  show (hi ++ lo).toNat = _
  rw [BitVec.toNat_append, ← Nat.shiftLeft_add_eq_or_of_lt h, Nat.shiftLeft_eq]

/-! ### The stack -/

theorem State.pushReturn_some {s : State} (a : Word) (h : s.sp.val < 16) :
    s.pushReturn a = some { s with stack := s.stack.set s.sp.val a h, sp := ⟨s.sp.val + 1, by omega⟩ } := by
  unfold State.pushReturn; rw [dif_pos h]

theorem State.pushReturn_none {s : State} (a : Word) (h : ¬ s.sp.val < 16) : s.pushReturn a = none := by
  unfold State.pushReturn; rw [dif_neg h]

theorem State.popReturn_some {s : State} (h : s.sp.val ≠ 0) :
    s.popReturn = some { s with pc := s.stack[s.sp.val - 1]'(by omega), sp := ⟨s.sp.val - 1, by omega⟩ } := by
  unfold State.popReturn; rw [dif_neg h]

theorem State.popReturn_none {s : State} (h : s.sp.val = 0) : s.popReturn = none := by
  unfold State.popReturn; rw [dif_pos h]

/-! ### Keys -/

theorem keyOperand_some {b : Byte} (h : b.toNat ≤ 15) : keyOperand b = some (b.setWidth 4) := by
  unfold keyOperand; rw [if_pos h]

theorem keyOperand_none {b : Byte} (h : 15 < b.toNat) : keyOperand b = none := by
  unfold keyOperand; rw [if_neg (by omega)]

theorem State.key_setKeyCell (k j : Nibble) (p : Bool) : (s.setKeyCell k p).key j = if j = k then p else s.key j := by
  have hk : k.toNat < 16 := k.isLt
  have hj : j.toNat < 16 := j.isLt
  unfold State.key
  simp only [State.setKeyCell_keypad, Vector.getElem_set]
  by_cases h : j = k
  · simp [h]
  · have : k.toNat ≠ j.toNat := fun e => h (BitVec.eq_of_toNat_eq e.symm)
    simp [h, this]

/-! ### The framebuffer -/

/-- One set sprite pixel inverts its own cell and no other (44_display.md R141). -/
theorem cell_xorPixel (X Y : Nat) (c : Framebuffer × Bool) (r k : Nat) (hr : r < 32) (hk : k < 64) :
    ((xorPixel X Y c).1[r])[k] = ((c.1[r])[k] ^^ decide (Y = r ∧ X = k)) := by
  unfold xorPixel
  split
  · rename_i h
    simp only [Vector.getElem_set]
    by_cases h1 : Y = r
    · subst h1
      by_cases h2 : X = k
      · subst h2; simp
      · simp [h2]
    · simp [h1]
  · rename_i h
    have : ¬ (Y = r ∧ X = k) := by omega
    simp [this]

/-- One set sprite pixel is a collision exactly when its cell is on the screen and on (44_display.md R141). -/
theorem hit_xorPixel (X Y : Nat) (c : Framebuffer × Bool) :
    (xorPixel X Y c).2 = true ↔ c.2 = true ∨ ∃ hY : Y < 32, ∃ hX : X < 64, ((c.1[Y])[X]) = true := by
  unfold xorPixel
  split
  · rename_i h
    have h1 : Y < 32 := by omega
    have h2 : X < 64 := by omega
    simp [h1, h2]
  · rename_i h
    have : ¬ ∃ hY : Y < 32, ∃ hX : X < 64, ((c.1[Y])[X]) = true := by
      rintro ⟨hY, hX, -⟩; omega
    simp [this]

end Sys2Proof.Machine
end

