-- ==== Sys2Proof/Laws/Display.lean ====
section
/-! SUPPORT. What the sprite renderer does to one cell and to VF, said once (44_display.md R141): a set pixel of the sprite falls
on a cell at most once, so drawing inverts exactly the covered cells. -/

namespace Sys2Proof.Machine

/-- Whether the sprite row `row` puts a set pixel on the cell (`r`, `k`), as a Bool. -/
def rowCovers (edge : DrawEdge) (x0 Y : Nat) (row : Byte) (r k : Nat) : Bool :=
  (List.range 8).any fun col => row.getLsbD (7 - col) && decide (edgeCoord edge 32 Y = r ∧ edgeCoord edge 64 (x0 + col) = k)

/-- Whether the sprite rows put a set pixel on the cell (`r`, `k`), as a Bool. -/
def rowsCover (edge : DrawEdge) (x0 Y r k : Nat) : List Byte → Bool
  | [] => false
  | row :: rows => rowCovers edge x0 Y row r k || rowsCover edge x0 (Y + 1) r k rows

theorem rowCovers_iff (edge : DrawEdge) (x0 Y : Nat) (row : Byte) (r k : Nat) :
    rowCovers edge x0 Y row r k = true ↔
      ∃ col < 8, row.getLsbD (7 - col) = true ∧ edgeCoord edge 32 Y = r ∧ edgeCoord edge 64 (x0 + col) = k := by
  simp [rowCovers]

/-- The Bool agrees with the declarative reading in Safety. -/
theorem rowsCover_iff (edge : DrawEdge) (x0 Y r k : Nat) (rows : List Byte) :
    rowsCover edge x0 Y r k rows = true ↔ SpriteCovers edge x0 Y rows r k := by
  induction rows generalizing Y with
  | nil => simp [rowsCover, SpriteCovers]
  | cons row rows ih =>
    simp only [rowsCover, Bool.or_eq_true, ih, rowCovers_iff]
    constructor
    · rintro (⟨col, h1, h2, h3, h4⟩ | ⟨a, b, h1, h2, h3, h4, h5⟩)
      · exact ⟨0, col, by simp, h1, by simpa [spriteBit] using h2, h4, by simpa using h3⟩
      · refine ⟨a + 1, b, by simpa using h1, h2, by simpa [spriteBit] using h3, h4, ?_⟩
        rw [show Y + (a + 1) = Y + 1 + a by omega]; exact h5
    · rintro ⟨a, b, h1, h2, h3, h4, h5⟩
      cases a with
      | zero => exact .inl ⟨b, h2, by simpa [spriteBit] using h3, by simpa using h5, h4⟩
      | succ a =>
        refine .inr ⟨a, b, by simpa using h1, h2, by simpa [spriteBit] using h3, h4, ?_⟩
        rw [show Y + 1 + a = Y + (a + 1) by omega]; exact h5

/-- Two columns of one sprite row never fall on one cell. -/
theorem column_unique {edge : DrawEdge} {x0 a b k : Nat} (ha : a < 8) (hb : b < 8)
    (h1 : edgeCoord edge 64 (x0 + a) = k) (h2 : edgeCoord edge 64 (x0 + b) = k) : a = b := by
  cases edge <;> simp [edgeCoord] at h1 h2 <;> omega

/-- Two rows of one sprite never fall on one cell. -/
theorem row_unique {edge : DrawEdge} {y0 a b k : Nat} (ha : a < 16) (hb : b < 16)
    (h1 : edgeCoord edge 32 (y0 + a) = k) (h2 : edgeCoord edge 32 (y0 + b) = k) : a = b := by
  cases edge <;> simp [edgeCoord] at h1 h2 <;> omega

/-- A cell covered by the first row is covered by no later row. -/
theorem rowsCover_later {edge : DrawEdge} {x0 Y r k : Nat} {row : Byte} {rows : List Byte} (hl : rows.length ≤ 15)
    (h : rowCovers edge x0 Y row r k = true) : rowsCover edge x0 (Y + 1) r k rows = false := by
  by_contra hc
  rw [Bool.not_eq_false, rowsCover_iff] at hc
  obtain ⟨a, b, h1, -, -, -, h4⟩ := hc
  obtain ⟨-, -, -, h5, -⟩ := (rowCovers_iff ..).1 h
  have := row_unique (edge := edge) (y0 := Y) (a := 0) (b := a + 1) (by omega) (by omega) h5
    (by rw [show Y + (a + 1) = Y + 1 + a by omega]; exact h4)
  omega

/-- Some columns of one row: the cells they fall on are inverted, and a covered cell that was on is a collision. -/
theorem xorColumns (edge : DrawEdge) (x0 Y : Nat) (row : Byte) (l : List Nat) (hn : l.Nodup) (h8 : ∀ a ∈ l, a < 8)
    (c c' : Framebuffer × Bool)
    (hc : c' = l.foldl (fun acc col =>
      if row.getLsbD (7 - col) then xorPixel (edgeCoord edge 64 (x0 + col)) (edgeCoord edge 32 Y) acc else acc) c) :
    (∀ r k, (hr : r < 32) → (hk : k < 64) → (c'.1[r])[k] = ((c.1[r])[k] ^^
      l.any fun col => row.getLsbD (7 - col) && decide (edgeCoord edge 32 Y = r ∧ edgeCoord edge 64 (x0 + col) = k))) ∧
    (c'.2 = true ↔ c.2 = true ∨ ∃ r k, ∃ hr : r < 32, ∃ hk : k < 64, (c.1[r])[k] = true ∧
      (l.any fun col => row.getLsbD (7 - col) && decide (edgeCoord edge 32 Y = r ∧ edgeCoord edge 64 (x0 + col) = k)) = true) := by
  induction l generalizing c with
  | nil => subst hc; simp
  | cons a l ih =>
    obtain ⟨hn1, hn2⟩ := List.nodup_cons.1 hn
    rw [List.foldl_cons] at hc
    by_cases hb : row.getLsbD (7 - a) = true
    · rw [if_pos hb] at hc
      obtain ⟨ih1, ih2⟩ := ih hn2 (fun x hx => h8 x (by simp [hx])) _ hc
      have hsep : ∀ r k, edgeCoord edge 32 Y = r ∧ edgeCoord edge 64 (x0 + a) = k →
          (l.any fun col => row.getLsbD (7 - col) && decide (edgeCoord edge 32 Y = r ∧ edgeCoord edge 64 (x0 + col) = k)) = false := by
        rintro r k ⟨-, h1⟩
        rw [List.any_eq_false]
        intro x hx hp
        simp at hp
        have := column_unique (h8 a (by simp)) (h8 x (by simp [hx])) h1 hp.2.2
        subst this; exact hn1 hx
      constructor
      · intro r k hr hk
        rw [ih1 r k hr hk, cell_xorPixel, List.any_cons, Bool.xor_assoc]
        by_cases hrk : edgeCoord edge 32 Y = r ∧ edgeCoord edge 64 (x0 + a) = k
        · simp only [hsep r k hrk]; simp [hrk, hb]
        · simp [hrk]
      · rw [ih2, hit_xorPixel]
        constructor
        · rintro ((h1 | ⟨hY, hX, h1⟩) | ⟨r, k, hr, hk, h1, h2⟩)
          · exact .inl h1
          · exact .inr ⟨_, _, hY, hX, h1, by simp [hb]⟩
          · by_cases hrk : edgeCoord edge 32 Y = r ∧ edgeCoord edge 64 (x0 + a) = k
            · rw [hsep r k hrk] at h2; cases h2
            · rw [cell_xorPixel] at h1
              exact .inr ⟨r, k, hr, hk, by simpa [hrk] using h1, by rw [List.any_cons, h2, Bool.or_true]⟩
        · rintro (h1 | ⟨r, k, hr, hk, h1, h2⟩)
          · exact .inl (.inl h1)
          · by_cases hrk : edgeCoord edge 32 Y = r ∧ edgeCoord edge 64 (x0 + a) = k
            · obtain ⟨rfl, rfl⟩ := hrk
              exact .inl (.inr ⟨hr, hk, h1⟩)
            · refine .inr ⟨r, k, hr, hk, ?_, ?_⟩
              · rw [cell_xorPixel]; simp [hrk, h1]
              · simpa [List.any_cons, hrk] using h2
    · rw [if_neg hb] at hc
      have hany : ∀ r k, ((a :: l).any fun col => row.getLsbD (7 - col) && decide (edgeCoord edge 32 Y = r ∧ edgeCoord edge 64 (x0 + col) = k)) =
          (l.any fun col => row.getLsbD (7 - col) && decide (edgeCoord edge 32 Y = r ∧ edgeCoord edge 64 (x0 + col) = k)) := by
        intro r k; simp [hb]
      simp only [hany]
      exact ih hn2 (fun x hx => h8 x (by simp [hx])) _ hc

/-- One sprite row, everything it does. -/
theorem cell_xorRow (edge : DrawEdge) (x0 Y : Nat) (row : Byte) (c : Framebuffer × Bool) (r k : Nat) (hr : r < 32) (hk : k < 64) :
    ((xorRow edge x0 Y row c).1[r])[k] = ((c.1[r])[k] ^^ rowCovers edge x0 Y row r k) :=
  (xorColumns edge x0 Y row (List.range 8) List.nodup_range (by simp) c _ rfl).1 r k hr hk

theorem hit_xorRow (edge : DrawEdge) (x0 Y : Nat) (row : Byte) (c : Framebuffer × Bool) :
    (xorRow edge x0 Y row c).2 = true ↔
      c.2 = true ∨ ∃ r k, ∃ hr : r < 32, ∃ hk : k < 64, (c.1[r])[k] = true ∧ rowCovers edge x0 Y row r k = true :=
  (xorColumns edge x0 Y row (List.range 8) List.nodup_range (by simp) c _ rfl).2

/-- The sprite, one cell: inverted exactly when covered. -/
theorem cell_xorRows (edge : DrawEdge) (x0 Y : Nat) (rows : List Byte) (hl : rows.length ≤ 16) (c : Framebuffer × Bool)
    (r k : Nat) (hr : r < 32) (hk : k < 64) :
    ((xorRows edge x0 Y rows c).1[r])[k] = ((c.1[r])[k] ^^ rowsCover edge x0 Y r k rows) := by
  induction rows generalizing Y c with
  | nil => simp [xorRows, rowsCover]
  | cons row rows ih =>
    simp only [List.length_cons] at hl
    simp only [xorRows, rowsCover]
    rw [ih _ (by omega), cell_xorRow _ _ _ _ _ _ _ hr hk, Bool.xor_assoc]
    cases h : rowCovers edge x0 Y row r k with
    | false => simp
    | true => rw [rowsCover_later (by omega) h]; rfl

/-- The sprite, the collision: exactly when a covered cell was on before the draw. -/
theorem hit_xorRows (edge : DrawEdge) (x0 Y : Nat) (rows : List Byte) (hl : rows.length ≤ 16) (c : Framebuffer × Bool) :
    (xorRows edge x0 Y rows c).2 = true ↔
      c.2 = true ∨ ∃ r k, ∃ hr : r < 32, ∃ hk : k < 64, (c.1[r])[k] = true ∧ rowsCover edge x0 Y r k rows = true := by
  induction rows generalizing Y c with
  | nil => simp [xorRows, rowsCover]
  | cons row rows ih =>
    simp only [List.length_cons] at hl
    simp only [xorRows, rowsCover]
    rw [ih _ (by omega), hit_xorRow]
    constructor
    · rintro ((h | ⟨r, k, hr, hk, h1, h2⟩) | ⟨r, k, hr, hk, h1, h2⟩)
      · exact .inl h
      · exact .inr ⟨r, k, hr, hk, h1, by rw [h2, Bool.true_or]⟩
      · have h3 : rowCovers edge x0 Y row r k = false := by
          by_contra h3
          rw [Bool.not_eq_false] at h3
          rw [rowsCover_later (by omega) h3] at h2; cases h2
        rw [cell_xorRow _ _ _ _ _ _ _ hr hk, h3, Bool.xor_false] at h1
        exact .inr ⟨r, k, hr, hk, h1, by rw [h2, Bool.or_true]⟩
    · rintro (h | ⟨r, k, hr, hk, h1, h2⟩)
      · exact .inl (.inl h)
      · cases h3 : rowCovers edge x0 Y row r k with
        | true => exact .inl (.inr ⟨r, k, hr, hk, h1, h3⟩)
        | false =>
          refine .inr ⟨r, k, hr, hk, ?_, by simpa [h3] using h2⟩
          rw [cell_xorRow _ _ _ _ _ _ _ hr hk, h3, Bool.xor_false]; exact h1

/-- Both edge policies leave a coordinate on the screen alone (44_display.md R141). -/
theorem edgeCoord_of_lt {edge : DrawEdge} {size coord : Nat} (h : coord < size) : edgeCoord edge size coord = coord := by
  cases edge
  · rfl
  · exact Nat.mod_eq_of_lt h

/-- Where every set pixel of a row is on the screen, the edge policy does not matter (44_display.md R141). -/
theorem xorRow_edge (e e' : DrawEdge) (x0 Y : Nat) (row : Byte) (c : Framebuffer × Bool)
    (h : ∀ col < 8, row.getLsbD (7 - col) = true → x0 + col ≤ 63 ∧ Y ≤ 31) : xorRow e x0 Y row c = xorRow e' x0 Y row c := by
  unfold xorRow
  apply List.foldl_ext
  intro acc col hc
  split
  · rename_i hb
    obtain ⟨h1, h2⟩ := h col (List.mem_range.1 hc) hb
    rw [edgeCoord_of_lt (by omega), edgeCoord_of_lt (by omega), edgeCoord_of_lt (by omega), edgeCoord_of_lt (by omega)]
  · rfl

/-- Where every set pixel of a sprite is on the screen, the edge policy does not matter (44_display.md R141). -/
theorem xorRows_edge (e e' : DrawEdge) (x0 Y : Nat) (rows : List Byte) (c : Framebuffer × Bool)
    (h : ∀ row col, (hr : row < rows.length) → col < 8 → rows[row].getLsbD (7 - col) = true → x0 + col ≤ 63 ∧ Y + row ≤ 31) :
    xorRows e x0 Y rows c = xorRows e' x0 Y rows c := by
  induction rows generalizing Y c with
  | nil => rfl
  | cons r rows ih =>
    simp only [xorRows]
    rw [xorRow_edge e e' x0 Y r c fun col hc hb => by simpa using h 0 col (by simp) hc hb]
    apply ih
    intro row col hr hc hb
    have := h (row + 1) col (by simpa using hr) hc (by simpa using hb)
    omega

/-- A drawn sprite, one cell (44_display.md R141). -/
theorem State.pixel_drawSprite (s : State) (x0 y0 : Byte) (rows : List Byte) (hl : rows.length ≤ 16) (r : Fin 32) (c : Fin 64) :
    (s.drawSprite x0 y0 rows).pixel r c = (s.pixel r c ^^ rowsCover s.quirks.drawEdge x0.toNat y0.toNat r.val c.val rows) :=
  cell_xorRows _ _ _ _ hl (s.fb, false) _ _ r.isLt c.isLt

/-- A drawn sprite, VF (44_display.md R141). -/
theorem State.vf_drawSprite (s : State) (x0 y0 : Byte) (rows : List Byte) (hl : rows.length ≤ 16) :
    (s.drawSprite x0 y0 rows).reg vf = 1#8 ∧ (∃ r c, s.pixel r c = true ∧ rowsCover s.quirks.drawEdge x0.toNat y0.toNat r.val c.val rows = true) ∨
    (s.drawSprite x0 y0 rows).reg vf = 0#8 ∧ ¬ ∃ r c, s.pixel r c = true ∧ rowsCover s.quirks.drawEdge x0.toNat y0.toNat r.val c.val rows = true := by
  have h := hit_xorRows s.quirks.drawEdge x0.toNat y0.toNat rows hl (s.fb, false)
  have hv : (s.drawSprite x0 y0 rows).reg vf = flagByte (xorRows s.quirks.drawEdge x0.toNat y0.toNat rows (s.fb, false)).2 := by
    simp [State.drawSprite]
  have hp : (∃ r c, s.pixel r c = true ∧ rowsCover s.quirks.drawEdge x0.toNat y0.toNat r.val c.val rows = true) ↔
      ∃ r k, ∃ hr : r < 32, ∃ hk : k < 64, (s.fb[r])[k] = true ∧ rowsCover s.quirks.drawEdge x0.toNat y0.toNat r k rows = true :=
    ⟨fun ⟨r, c, h1, h2⟩ => ⟨r, c, r.isLt, c.isLt, h1, h2⟩, fun ⟨r, k, hr, hk, h1, h2⟩ => ⟨⟨r, hr⟩, ⟨k, hk⟩, h1, h2⟩⟩
  rw [hp, hv]
  cases hx : (xorRows s.quirks.drawEdge x0.toNat y0.toNat rows (s.fb, false)).2 with
  | true => exact .inl ⟨rfl, (h.1 hx).resolve_left (by simp)⟩
  | false => exact .inr ⟨rfl, fun hc => by rw [h.2 (.inr hc)] at hx; cases hx⟩

/-- The registers a draw leaves alone. -/
theorem State.reg_drawSprite_ne (s : State) (x0 y0 : Byte) (rows : List Byte) {r : RegIdx} (hr : r ≠ vf) :
    (s.drawSprite x0 y0 rows).reg r = s.reg r := by
  unfold State.drawSprite; rw [State.reg_setReg_ne _ hr]; rfl

end Sys2Proof.Machine
end

