-- ==== Sys2Proof/Laws/Encoding.lean ====
section
/-! SUPPORT. The fields of a word built from nibbles, and the word rebuilt from its fields (30_encoding.md R71, R72). -/

namespace Sys2Proof

theorem toNat_append_nibble {k : Nat} (a : BitVec k) (b : Nibble) : (a ++ b).toNat = a.toNat * 16 + b.toNat := by
  have hb := b.isLt
  rw [BitVec.toNat_append, ← Nat.shiftLeft_add_eq_or_of_lt hb, Nat.shiftLeft_eq]

/-- The word of four nibbles as a number. -/
theorem toNat_ofNibbles (a b c d : Nibble) :
    (ofNibbles a b c d).toNat = a.toNat * 4096 + b.toNat * 256 + c.toNat * 16 + d.toNat := by
  have h : (ofNibbles a b c d).toNat = ((a.toNat * 16 + b.toNat) * 16 + c.toNat) * 16 + d.toNat := by
    unfold ofNibbles
    erw [toNat_append_nibble (a ++ b ++ c) d, toNat_append_nibble (a ++ b) c, toNat_append_nibble a b]
  omega

theorem toNat_opField (w : Word) : (opField w).toNat = w.toNat / 4096 := by
  have := w.isLt; simp only [opField, BitVec.extractLsb'_toNat, Nat.shiftRight_eq_div_pow]; omega

theorem toNat_xField (w : Word) : (xField w).toNat = w.toNat / 256 % 16 := by
  simp only [xField, BitVec.extractLsb'_toNat, Nat.shiftRight_eq_div_pow]

theorem toNat_yField (w : Word) : (yField w).toNat = w.toNat / 16 % 16 := by
  simp only [yField, BitVec.extractLsb'_toNat, Nat.shiftRight_eq_div_pow]

theorem toNat_nField (w : Word) : (nField w).toNat = w.toNat % 16 := by
  simp only [nField, BitVec.extractLsb'_toNat, Nat.shiftRight_eq_div_pow]; omega

theorem toNat_kkField (w : Word) : (kkField w).toNat = w.toNat % 256 := by
  simp only [kkField, BitVec.extractLsb'_toNat, Nat.shiftRight_eq_div_pow]; omega

theorem toNat_nnnField (w : Word) : (nnnField w).toNat = w.toNat % 4096 := by
  simp only [nnnField, BitVec.extractLsb'_toNat, Nat.shiftRight_eq_div_pow]; omega

/-- The word of the format XKK as a number. -/
theorem toNat_encodeXKK (op : Nibble) (x : RegIdx) (kk : Byte) :
    (encodeXKK op x kk).toNat = op.toNat * 4096 + x.toNat * 256 + kk.toNat := by
  have := kk.isLt
  simp only [encodeXKK, toNat_ofNibbles, BitVec.extractLsb'_toNat, Nat.shiftRight_eq_div_pow]; omega

/-- The word of the format NNN as a number. -/
theorem toNat_encodeNNN (op : Nibble) (nnn : Addr12) : (encodeNNN op nnn).toNat = op.toNat * 4096 + nnn.toNat := by
  have := nnn.isLt
  simp only [encodeNNN, toNat_ofNibbles, BitVec.extractLsb'_toNat, Nat.shiftRight_eq_div_pow]; omega

section Formats

variable (a b c d : Nibble) (kk : Byte) (nnn : Addr12)

@[simp] theorem opField_ofNibbles : opField (ofNibbles a b c d) = a := by
  have := b.isLt; have := c.isLt; have := d.isLt
  apply BitVec.eq_of_toNat_eq; rw [toNat_opField, toNat_ofNibbles]; omega

@[simp] theorem xField_ofNibbles : xField (ofNibbles a b c d) = b := by
  have := b.isLt; have := c.isLt; have := d.isLt
  apply BitVec.eq_of_toNat_eq; rw [toNat_xField, toNat_ofNibbles]; omega

@[simp] theorem yField_ofNibbles : yField (ofNibbles a b c d) = c := by
  have := c.isLt; have := d.isLt
  apply BitVec.eq_of_toNat_eq; rw [toNat_yField, toNat_ofNibbles]; omega

@[simp] theorem nField_ofNibbles : nField (ofNibbles a b c d) = d := by
  have := d.isLt
  apply BitVec.eq_of_toNat_eq; rw [toNat_nField, toNat_ofNibbles]; omega

@[simp] theorem opField_encodeXKK : opField (encodeXKK a b kk) = a := by simp [encodeXKK]

@[simp] theorem xField_encodeXKK : xField (encodeXKK a b kk) = b := by simp [encodeXKK]

@[simp] theorem kkField_encodeXKK : kkField (encodeXKK a b kk) = kk := by
  have := kk.isLt
  apply BitVec.eq_of_toNat_eq; rw [toNat_kkField, toNat_encodeXKK]; omega

@[simp] theorem opField_encodeNNN : opField (encodeNNN a nnn) = a := by simp [encodeNNN]

@[simp] theorem nnnField_encodeNNN : nnnField (encodeNNN a nnn) = nnn := by
  have := nnn.isLt
  apply BitVec.eq_of_toNat_eq; rw [toNat_nnnField, toNat_encodeNNN]; omega

end Formats

/-- A word is its four nibbles (30_encoding.md R71). -/
theorem ofNibbles_fields (w : Word) : ofNibbles (opField w) (xField w) (yField w) (nField w) = w := by
  have := w.isLt
  apply BitVec.eq_of_toNat_eq
  rw [toNat_ofNibbles, toNat_opField, toNat_xField, toNat_yField, toNat_nField]; omega

/-- A word is its family, `x` and `kk` (30_encoding.md R71: `kk = y ++ n`). -/
theorem encodeXKK_fields (w : Word) : encodeXKK (opField w) (xField w) (kkField w) = w := by
  have := w.isLt
  apply BitVec.eq_of_toNat_eq
  rw [toNat_encodeXKK, toNat_opField, toNat_xField, toNat_kkField]; omega

/-- A word is its family and `nnn` (30_encoding.md R71: `nnn = x ++ y ++ n`). -/
theorem encodeNNN_fields (w : Word) : encodeNNN (opField w) (nnnField w) = w := by
  have := w.isLt
  apply BitVec.eq_of_toNat_eq
  rw [toNat_encodeNNN, toNat_opField, toNat_nnnField]; omega

/-- Masking off all but some nibbles, as numbers: the masks of the opcode map (30_encoding.md R75). -/
theorem and_F000 (w : Word) : (w &&& 0xF000#16) = ofNibbles (opField w) 0#4 0#4 0#4 := by
  apply BitVec.eq_of_getLsbD_eq
  intro i hi
  have hw : ∀ j, (opField w).getLsbD j = (decide (j < 4) && w.getLsbD (12 + j)) := by
    intro j; simp [opField, BitVec.getLsbD_extractLsb']
  show _ = (opField w ++ 0#4 ++ 0#4 ++ 0#4).getLsbD i
  simp only [BitVec.getLsbD_append, hw, BitVec.getLsbD_and]
  interval_cases i <;> simp

theorem and_F00F (w : Word) : (w &&& 0xF00F#16) = ofNibbles (opField w) 0#4 0#4 (nField w) := by
  apply BitVec.eq_of_getLsbD_eq
  intro i hi
  have hw : ∀ j, (opField w).getLsbD j = (decide (j < 4) && w.getLsbD (12 + j)) := by
    intro j; simp [opField, BitVec.getLsbD_extractLsb']
  have hn : ∀ j, (nField w).getLsbD j = (decide (j < 4) && w.getLsbD (0 + j)) := by
    intro j; simp [nField, BitVec.getLsbD_extractLsb']
  show _ = (opField w ++ 0#4 ++ 0#4 ++ nField w).getLsbD i
  simp only [BitVec.getLsbD_append, hw, hn, BitVec.getLsbD_and]
  interval_cases i <;> simp

theorem and_F0FF (w : Word) : (w &&& 0xF0FF#16) = encodeXKK (opField w) 0#4 (kkField w) := by
  have h : encodeXKK (opField w) 0#4 (kkField w) = ofNibbles (opField w) 0#4 (yField w) (nField w) := by
    apply BitVec.eq_of_toNat_eq
    rw [toNat_encodeXKK, toNat_ofNibbles, toNat_kkField, toNat_yField, toNat_nField]; simp; omega
  rw [h]
  apply BitVec.eq_of_getLsbD_eq
  intro i hi
  have hw : ∀ j, (opField w).getLsbD j = (decide (j < 4) && w.getLsbD (12 + j)) := by
    intro j; simp [opField, BitVec.getLsbD_extractLsb']
  have hy : ∀ j, (yField w).getLsbD j = (decide (j < 4) && w.getLsbD (4 + j)) := by
    intro j; simp [yField, BitVec.getLsbD_extractLsb']
  have hn : ∀ j, (nField w).getLsbD j = (decide (j < 4) && w.getLsbD (0 + j)) := by
    intro j; simp [nField, BitVec.getLsbD_extractLsb']
  show _ = (opField w ++ 0#4 ++ yField w ++ nField w).getLsbD i
  simp only [BitVec.getLsbD_append, hw, hy, hn, BitVec.getLsbD_and]
  interval_cases i <;> simp

/-- A word of the format NNN with its address ORed in. -/
theorem encodeNNN_eq_or (op : Nibble) (nnn : Addr12) : encodeNNN op nnn = (encodeNNN op 0#12 ||| nnn.setWidth 16) := by
  apply BitVec.eq_of_toNat_eq
  rw [toNat_encodeNNN, BitVec.toNat_or, toNat_encodeNNN]
  have := nnn.isLt
  have h : nnn.toNat % 65536 = nnn.toNat := by omega
  simp only [BitVec.toNat_setWidth, BitVec.toNat_ofNat]
  simp only [Nat.reducePow, Nat.zero_mod, Nat.add_zero]
  rw [h, show op.toNat * 4096 = op.toNat <<< 12 by simp [Nat.shiftLeft_eq], ← Nat.shiftLeft_add_eq_or_of_lt this]

/-- A word of four nibbles with its three operand nibbles ORed in. -/
theorem ofNibbles_eq_or (a b c d : Nibble) :
    ofNibbles a b c d = (ofNibbles a 0#4 0#4 0#4 ||| (b.setWidth 16 <<< 8) ||| (c.setWidth 16 <<< 4) ||| d.setWidth 16) := by
  apply BitVec.eq_of_getLsbD_eq
  intro i hi
  simp only [BitVec.getLsbD_or]
  show (a ++ b ++ c ++ d).getLsbD i = ((((a ++ 0#4 ++ 0#4 ++ 0#4).getLsbD i || _) || _) || _)
  simp only [BitVec.getLsbD_append]
  interval_cases i <;> simp

/-- A word of the format X or XKK with `x` ORed in. -/
theorem encodeXKK_eq_or (op : Nibble) (x : RegIdx) (kk : Byte) :
    encodeXKK op x kk = (encodeXKK op 0#4 kk ||| (x.setWidth 16 <<< 8)) := by
  apply BitVec.eq_of_getLsbD_eq
  intro i hi
  simp only [BitVec.getLsbD_or]
  show (op ++ x ++ BitVec.extractLsb' 4 4 kk ++ BitVec.extractLsb' 0 4 kk).getLsbD i =
    ((op ++ 0#4 ++ BitVec.extractLsb' 4 4 kk ++ BitVec.extractLsb' 0 4 kk).getLsbD i || _)
  simp only [BitVec.getLsbD_append]
  interval_cases i <;> simp

end Sys2Proof
end

