-- ==== Sys2Proof/Laws/Step.lean ====
section
/-! SUPPORT. What one STEP can do (40_step_cycle.md R90), said once; claims about every step are case analyses over this. -/

namespace Sys2Proof.Machine

/-- STEP in each of its cases (40_step_cycle.md R90). -/
theorem step_cases {s t : State} (h : step s = .next t) :
    (s.status ≠ .running ∧ t = s) ∨
    (s.status = .running ∧ 4094 < s.pc.toNat ∧ t = s.raiseFatal .memoryOutOfBounds none) ∨
    (∃ w, s.status = .running ∧ s.pc.toNat ≤ 4094 ∧ s.fetch = some w ∧ decodeWord w = none ∧
      t = s.raiseFatal .unknownOpcode (some w)) ∨
    (∃ w i, s.status = .running ∧ s.pc.toNat ≤ 4094 ∧ s.fetch = some w ∧ decodeWord w = some i ∧ exec i s = .next t) := by
  unfold step at h
  cases hs : s.status with
  | halted e => simp only [hs] at h; cases h; exact .inl ⟨by simp, rfl⟩
  | blocked => simp only [hs] at h; cases h; exact .inl ⟨by simp, rfl⟩
  | running =>
    right
    simp only [hs] at h
    by_cases hp : s.pc.toNat ≤ 4094
    · right
      rw [State.fetch_some hp] at h ⊢
      cases hd : decodeWord (wordOfBytes (s.mem.byteAt s.pc.toNat) (s.mem.byteAt (s.pc.toNat + 1))) with
      | none =>
        simp only [hd] at h; cases h
        exact .inl ⟨_, rfl, hp, rfl, hd, rfl⟩
      | some i =>
        simp only [hd] at h
        exact .inr ⟨_, i, rfl, hp, rfl, hd, h⟩
    · left
      rw [State.fetch_none (by omega)] at h
      cases h
      exact ⟨rfl, by omega, rfl⟩

/-- STEP where a word is fetched and decodes. -/
theorem step_of_decode {s : State} {w : Word} {i : Instr} (hs : s.status = .running) (hf : s.fetch = some w)
    (hd : decodeWord w = some i) : step s = exec i s := by
  unfold step; simp only [hs, hf, hd]

end Sys2Proof.Machine
end

