-- ==== Sys2Proof/Laws/Events.lean ====
section
/-! SUPPORT. What each event can do, said once (60_exceptions.md R170 to R173, 40_step_cycle.md R95). -/

namespace Sys2Proof.Machine

/-- A timer as a number: truncated subtraction (60_exceptions.md R171). -/
theorem toNat_countDown (b : Byte) : (countDown b).toNat = b.toNat - 1 := by
  unfold countDown
  split
  · simp [*]
  · rename_i h
    have : b.toNat ≠ 0 := fun e => h (BitVec.eq_of_toNat_eq e)
    rw [BitVec.toNat_sub]; simp; omega

/-- TICK outside HALTED. -/
theorem applyEvent_tick {s : State} (hs : s.Safe) :
    applyEvent .tick s = .next ((s.setDelay (countDown s.dt)).setSound (countDown s.st)) := by
  show Host.Outcome.next (Machine.tick s) = _
  unfold Machine.tick
  cases h : s.status with
  | halted e => exact absurd h (hs e)
  | running => rfl
  | blocked => rfl

/-- TICK in HALTED. -/
theorem applyEvent_tick_halted {s : State} {e : ErrorRecord} (h : s.status = .halted e) : applyEvent .tick s = .next s := by
  show Host.Outcome.next (Machine.tick s) = _
  unfold Machine.tick; simp only [h]

/-- SET_KEY outside HALTED. -/
theorem applyEvent_setKey {s : State} (k : Nibble) (p : Bool) (hs : s.Safe) :
    applyEvent (.setKey k p) s = .next (s.keyEvent k p) := by
  show Host.Outcome.next (Machine.setKey k p s) = _
  unfold Machine.setKey
  cases h : s.status with
  | halted e => exact absurd h (hs e)
  | running => rfl
  | blocked => rfl

/-- SET_KEY in HALTED. -/
theorem applyEvent_setKey_halted {s : State} (k : Nibble) (p : Bool) {e : ErrorRecord} (h : s.status = .halted e) :
    applyEvent (.setKey k p) s = .next s := by
  show Host.Outcome.next (Machine.setKey k p s) = _
  unfold Machine.setKey; simp only [h]

/-- What SET_KEY does outside HALTED: a press edge that ends a wait, or the keypad cell alone (60_exceptions.md R172, R173). -/
theorem State.keyEvent_cases (s : State) (k : Nibble) (p : Bool) :
    (∃ x, p = true ∧ s.key k = false ∧ s.wait = some x ∧
      s.keyEvent k p = (s.setKeyCell k p).endWait.setReg x (k.setWidth 8)) ∨
    ((p = false ∨ s.key k = true ∨ s.wait = none) ∧ s.keyEvent k p = s.setKeyCell k p) := by
  unfold State.keyEvent State.pressEdge State.resolveWait
  cases p with
  | false => exact .inr ⟨.inl rfl, rfl⟩
  | true =>
    cases hk : s.key k with
    | true => exact .inr ⟨.inr (.inl rfl), rfl⟩
    | false =>
      cases hw : s.wait with
      | none => exact .inr ⟨.inr (.inr rfl), by simp [hw]⟩
      | some x => exact .inl ⟨x, rfl, rfl, rfl, by simp [hw]⟩

/-- STEP(rand) from the STEP of the state that holds the byte. -/
theorem applyEvent_step {s t : State} {r : Byte} (h : step { s with randIn := r :: s.randIn } = .next t) :
    applyEvent (.step r) s = .next { t with randIn := s.randIn } := by
  show stepWith r s = _
  unfold stepWith; rw [h]

/-- RESET with an image that fits. -/
theorem applyEvent_reset {rom : List Byte} (q : Quirks) (font : Vector Byte 80) (s : State) (h : rom.length ≤ 3584) :
    applyEvent (.reset rom q font) s = .next (s.afterReset rom q font) := by
  have hw : romWellFormed rom = true := by simpa [romWellFormed, Config.romMax] using h
  simp [applyEvent, hw]

/-- The memory RESET leaves is canonical. -/
theorem wf_afterReset {rom : List Byte} (q : Quirks) (font : Vector Byte 80) (s : State) (h : rom.length ≤ 3584) :
    (s.afterReset rom q font).mem.wf = true :=
  Memory.wf_putFrom _ (Memory.wf_putFrom _ rfl (by simp)) (by simp only [Config.progBase]; omega)

end Sys2Proof.Machine
end

