-- ==== Sys2Proof/Laws/Exec.lean ====
section
/-! SUPPORT. The next state of each instruction that has a check, inside and outside its condition: one lemma each, so that no
proof unfolds the check again. -/

namespace Sys2Proof.Machine

/-- What an instruction with one check answers when it does not end in HALTED. -/
theorem State.orRaise_safe {s t : State} {k : FatalKind} {i : Instr} {e : Option State}
    (h : Host.Outcome.next (φ := Fault) (ρ := Refusal) (s.orRaise k i e) = .next t) (ht : ∀ r, t.status ≠ .halted r) :
    e = some t := by
  cases e with
  | some u => cases h; rfl
  | none => cases h; exact absurd rfl (ht _)

/-- 41_control_flow.md R100. -/
theorem exec_ret {s : State} (h : s.sp.val ≠ 0) :
    exec .ret s = .next { s with pc := s.stack[s.sp.val - 1]'(by omega), sp := ⟨s.sp.val - 1, by omega⟩ } := by
  show Host.Outcome.next (s.orRaise _ _ s.advance.popReturn) = _
  rw [State.popReturn_some (s := s.advance) h]; rfl

theorem exec_ret_empty {s : State} (h : s.sp.val = 0) :
    exec .ret s = .next (s.raiseFatal .stackUnderflow (some (encode .ret))) := by
  show Host.Outcome.next (s.orRaise _ _ s.advance.popReturn) = _
  rw [State.popReturn_none (s := s.advance) h]; rfl

/-- 41_control_flow.md R102. -/
theorem exec_call {s : State} (nnn : Addr12) (h : s.sp.val < 16) :
    exec (.call nnn) s = .next { s with
      pc := addrOperand nnn, stack := s.stack.set s.sp.val (s.pc + 2#16) h, sp := ⟨s.sp.val + 1, by omega⟩ } := by
  show Host.Outcome.next (s.orRaise _ _ ((s.advance.pushReturn s.advance.pc).map _)) = _
  rw [State.pushReturn_some (s := s.advance) _ h]; rfl

theorem exec_call_full {s : State} (nnn : Addr12) (h : ¬ s.sp.val < 16) :
    exec (.call nnn) s = .next (s.raiseFatal .stackOverflow (some (encode (.call nnn)))) := by
  show Host.Outcome.next (s.orRaise _ _ ((s.advance.pushReturn s.advance.pc).map _)) = _
  rw [State.pushReturn_none (s := s.advance) _ h]; rfl

/-- 43_index_memory.md R133. -/
theorem exec_ldB {s : State} (x : RegIdx) (h : s.i.toNat + 2 ≤ 4095) :
    exec (.ldB x) s = .next { s with pc := s.pc + 2#16, mem := s.mem.putFrom s.indexBase (bcdDigits (s.reg x)) } := by
  show Host.Outcome.next (s.orRaise _ _ (s.advance.memWrite s.indexBase (bcdDigits (s.reg x)))) = _
  rw [State.memWrite_some _ (.inr h)]; rfl

theorem exec_ldB_out {s : State} (x : RegIdx) (h : 4095 < s.i.toNat + 2) :
    exec (.ldB x) s = .next (s.raiseFatal .memoryOutOfBounds (some (encode (.ldB x)))) := by
  show Host.Outcome.next (s.orRaise _ _ (s.advance.memWrite s.indexBase (bcdDigits (s.reg x)))) = _
  rw [State.memWrite_none _ (by simp [bcdDigits, State.indexBase]; omega)]; rfl

/-- 43_index_memory.md R134. -/
theorem exec_storeRegs {s : State} (x : RegIdx) (h : s.i.toNat + x.toNat ≤ 4095) :
    exec (.storeRegs x) s = .next (State.advanceIndex { s with
      pc := s.pc + 2#16, mem := s.mem.putFrom s.indexBase (s.regsUpTo x) } x) := by
  show Host.Outcome.next (s.orRaise _ _ ((s.advance.memWrite s.indexBase (s.regsUpTo x)).map _)) = _
  rw [State.memWrite_some _ (.inr (by rw [State.length_regsUpTo]; exact h))]; rfl

theorem exec_storeRegs_out {s : State} (x : RegIdx) (h : 4095 < s.i.toNat + x.toNat) :
    exec (.storeRegs x) s = .next (s.raiseFatal .memoryOutOfBounds (some (encode (.storeRegs x)))) := by
  show Host.Outcome.next (s.orRaise _ _ ((s.advance.memWrite s.indexBase (s.regsUpTo x)).map _)) = _
  rw [State.memWrite_none _ (by rw [State.length_regsUpTo]; simp only [State.indexBase]; omega)]; rfl

/-- 43_index_memory.md R135. -/
theorem exec_loadRegs {s : State} (x : RegIdx) (h : s.i.toNat + x.toNat ≤ 4095) :
    exec (.loadRegs x) s = .next
      ((s.advance.loadFromZero (s.mem.bytesFrom s.indexBase (x.toNat + 1))).advanceIndex x) := by
  show Host.Outcome.next (s.orRaise _ _ ((s.memRead s.indexBase (x.toNat + 1)).map _)) = _
  rw [State.memRead_some s (a := s.indexBase) (.inr h)]; rfl

theorem exec_loadRegs_out {s : State} (x : RegIdx) (h : 4095 < s.i.toNat + x.toNat) :
    exec (.loadRegs x) s = .next (s.raiseFatal .memoryOutOfBounds (some (encode (.loadRegs x)))) := by
  show Host.Outcome.next (s.orRaise _ _ ((s.memRead s.indexBase (x.toNat + 1)).map _)) = _
  rw [State.memRead_none _ (by simp only [State.indexBase]; omega)]; rfl

/-- 44_display.md R141. -/
theorem exec_drw {s : State} (x y : RegIdx) (n : Nibble) (h : n.toNat = 0 ∨ s.i.toNat + n.toNat - 1 ≤ 4095) :
    exec (.drw x y n) s = .next
      (s.advance.drawSprite (s.reg x) (s.reg y) (s.mem.bytesFrom s.indexBase n.toNat)) := by
  show Host.Outcome.next (s.orRaise _ _ ((s.memRead s.indexBase n.toNat).map _)) = _
  rw [State.memRead_some s (a := s.indexBase) h]; rfl

theorem exec_drw_out {s : State} (x y : RegIdx) (n : Nibble) (h : ¬ (n.toNat = 0 ∨ s.i.toNat + n.toNat - 1 ≤ 4095)) :
    exec (.drw x y n) s = .next (s.raiseFatal .memoryOutOfBounds (some (encode (.drw x y n)))) := by
  show Host.Outcome.next (s.orRaise _ _ ((s.memRead s.indexBase n.toNat).map _)) = _
  rw [State.memRead_none s (a := s.indexBase) h]; rfl

/-- 45_keypad_timers.md R150. -/
theorem exec_skp {s : State} (x : RegIdx) (h : (s.reg x).toNat ≤ 15) :
    exec (.skp x) s = .next (s.advance.skipIf (s.key ((s.reg x).setWidth 4))) := by
  show Host.Outcome.next (s.orRaise _ _ ((keyOperand (s.reg x)).map _)) = _
  rw [keyOperand_some h]; rfl

theorem exec_skp_out {s : State} (x : RegIdx) (h : 15 < (s.reg x).toNat) :
    exec (.skp x) s = .next (s.raiseFatal .keyIndexOutOfRange (some (encode (.skp x)))) := by
  show Host.Outcome.next (s.orRaise _ _ ((keyOperand (s.reg x)).map _)) = _
  rw [keyOperand_none h]; rfl

/-- 45_keypad_timers.md R151. -/
theorem exec_sknp {s : State} (x : RegIdx) (h : (s.reg x).toNat ≤ 15) :
    exec (.sknp x) s = .next (s.advance.skipIf (!s.key ((s.reg x).setWidth 4))) := by
  show Host.Outcome.next (s.orRaise _ _ ((keyOperand (s.reg x)).map _)) = _
  rw [keyOperand_some h]; rfl

theorem exec_sknp_out {s : State} (x : RegIdx) (h : 15 < (s.reg x).toNat) :
    exec (.sknp x) s = .next (s.raiseFatal .keyIndexOutOfRange (some (encode (.sknp x)))) := by
  show Host.Outcome.next (s.orRaise _ _ ((keyOperand (s.reg x)).map _)) = _
  rw [keyOperand_none h]; rfl

end Sys2Proof.Machine
end

