-- ==== Sys2Proof/Laws/PerInstr.lean ====
section
/-! SUPPORT. Statements made per instruction (LAWS.json): the family EncodingRow says that the encoded word selects the
instruction's own row of the opcode map (30_encoding.md R75). -/

namespace Sys2Proof.Laws

/-- The encoded word selects the row of its instruction (30_encoding.md R75). -/
def EncodingRow.Statement (i : Instr) : Prop := i.row.selects (encode i) = true

/-- A row whose mask keeps the family alone (30_encoding.md R75). -/
theorem selects_F000 (m : String) (p w : Word) (h : ofNibbles (opField w) 0#4 0#4 0#4 = p) :
    (OpcodeRow.mk m p 0xF000#16).selects w = true := by
  simp [OpcodeRow.selects, and_F000, h]

/-- A row whose mask keeps the family and `n` (30_encoding.md R75). -/
theorem selects_F00F (m : String) (p w : Word) (h : ofNibbles (opField w) 0#4 0#4 (nField w) = p) :
    (OpcodeRow.mk m p 0xF00F#16).selects w = true := by
  simp [OpcodeRow.selects, and_F00F, h]

/-- A row whose mask keeps the family and `kk` (30_encoding.md R75). -/
theorem selects_F0FF (m : String) (p w : Word) (h : encodeXKK (opField w) 0#4 (kkField w) = p) :
    (OpcodeRow.mk m p 0xF0FF#16).selects w = true := by
  simp [OpcodeRow.selects, and_F0FF, h]

theorem EncodingRow.cls : EncodingRow.Statement .cls := by unfold EncodingRow.Statement; decide
theorem EncodingRow.ret : EncodingRow.Statement .ret := by unfold EncodingRow.Statement; decide
theorem EncodingRow.jp (nnn : Addr12) : EncodingRow.Statement (.jp nnn) := selects_F000 _ _ _ (by simp [encode]; decide)
theorem EncodingRow.call (nnn : Addr12) : EncodingRow.Statement (.call nnn) := selects_F000 _ _ _ (by simp [encode]; decide)
theorem EncodingRow.seImm (x : RegIdx) (kk : Byte) : EncodingRow.Statement (.seImm x kk) := selects_F000 _ _ _ (by simp [encode]; decide)
theorem EncodingRow.sneImm (x : RegIdx) (kk : Byte) : EncodingRow.Statement (.sneImm x kk) := selects_F000 _ _ _ (by simp [encode]; decide)
theorem EncodingRow.seReg (x y : RegIdx) : EncodingRow.Statement (.seReg x y) := selects_F000 _ _ _ (by simp [encode]; decide)
theorem EncodingRow.ldImm (x : RegIdx) (kk : Byte) : EncodingRow.Statement (.ldImm x kk) := selects_F000 _ _ _ (by simp [encode]; decide)
theorem EncodingRow.addImm (x : RegIdx) (kk : Byte) : EncodingRow.Statement (.addImm x kk) := selects_F000 _ _ _ (by simp [encode]; decide)
theorem EncodingRow.ldReg (x y : RegIdx) : EncodingRow.Statement (.ldReg x y) := selects_F00F _ _ _ (by simp [encode]; decide)
theorem EncodingRow.orReg (x y : RegIdx) : EncodingRow.Statement (.orReg x y) := selects_F00F _ _ _ (by simp [encode]; decide)
theorem EncodingRow.andReg (x y : RegIdx) : EncodingRow.Statement (.andReg x y) := selects_F00F _ _ _ (by simp [encode]; decide)
theorem EncodingRow.xorReg (x y : RegIdx) : EncodingRow.Statement (.xorReg x y) := selects_F00F _ _ _ (by simp [encode]; decide)
theorem EncodingRow.addReg (x y : RegIdx) : EncodingRow.Statement (.addReg x y) := selects_F00F _ _ _ (by simp [encode]; decide)
theorem EncodingRow.subReg (x y : RegIdx) : EncodingRow.Statement (.subReg x y) := selects_F00F _ _ _ (by simp [encode]; decide)
theorem EncodingRow.shr (x y : RegIdx) : EncodingRow.Statement (.shr x y) := selects_F00F _ _ _ (by simp [encode]; decide)
theorem EncodingRow.subn (x y : RegIdx) : EncodingRow.Statement (.subn x y) := selects_F00F _ _ _ (by simp [encode]; decide)
theorem EncodingRow.shl (x y : RegIdx) : EncodingRow.Statement (.shl x y) := selects_F00F _ _ _ (by simp [encode]; decide)
theorem EncodingRow.sneReg (x y : RegIdx) : EncodingRow.Statement (.sneReg x y) := selects_F000 _ _ _ (by simp [encode]; decide)
theorem EncodingRow.ldI (nnn : Addr12) : EncodingRow.Statement (.ldI nnn) := selects_F000 _ _ _ (by simp [encode]; decide)
theorem EncodingRow.jpV0 (nnn : Addr12) : EncodingRow.Statement (.jpV0 nnn) := selects_F000 _ _ _ (by simp [encode]; decide)
theorem EncodingRow.rnd (x : RegIdx) (kk : Byte) : EncodingRow.Statement (.rnd x kk) := selects_F000 _ _ _ (by simp [encode]; decide)
theorem EncodingRow.drw (x y : RegIdx) (n : Nibble) : EncodingRow.Statement (.drw x y n) := selects_F000 _ _ _ (by simp [encode]; decide)
theorem EncodingRow.skp (x : RegIdx) : EncodingRow.Statement (.skp x) := selects_F0FF _ _ _ (by simp [encode]; decide)
theorem EncodingRow.sknp (x : RegIdx) : EncodingRow.Statement (.sknp x) := selects_F0FF _ _ _ (by simp [encode]; decide)
theorem EncodingRow.ldVxDT (x : RegIdx) : EncodingRow.Statement (.ldVxDT x) := selects_F0FF _ _ _ (by simp [encode]; decide)
theorem EncodingRow.ldVxK (x : RegIdx) : EncodingRow.Statement (.ldVxK x) := selects_F0FF _ _ _ (by simp [encode]; decide)
theorem EncodingRow.ldDTVx (x : RegIdx) : EncodingRow.Statement (.ldDTVx x) := selects_F0FF _ _ _ (by simp [encode]; decide)
theorem EncodingRow.ldSTVx (x : RegIdx) : EncodingRow.Statement (.ldSTVx x) := selects_F0FF _ _ _ (by simp [encode]; decide)
theorem EncodingRow.addI (x : RegIdx) : EncodingRow.Statement (.addI x) := selects_F0FF _ _ _ (by simp [encode]; decide)
theorem EncodingRow.ldF (x : RegIdx) : EncodingRow.Statement (.ldF x) := selects_F0FF _ _ _ (by simp [encode]; decide)
theorem EncodingRow.ldB (x : RegIdx) : EncodingRow.Statement (.ldB x) := selects_F0FF _ _ _ (by simp [encode]; decide)
theorem EncodingRow.storeRegs (x : RegIdx) : EncodingRow.Statement (.storeRegs x) := selects_F0FF _ _ _ (by simp [encode]; decide)
theorem EncodingRow.loadRegs (x : RegIdx) : EncodingRow.Statement (.loadRegs x) := selects_F0FF _ _ _ (by simp [encode]; decide)

end Sys2Proof.Laws
end

