-- ==== Sys2Proof/Tests/Slice0.lean ====
section
/-! SUPPORT. Tests: the WellFormed smoke tests, one hand-written word for every instruction, vectors of 95_test_vectors.md for one
step each, and for every statement a state that meets its hypotheses. -/

namespace Sys2Proof.Tests

open Sys2Proof Sys2Proof.Machine

/-! ### WellFormed: what each check refuses -/

/-- 70_reset_and_hazards.md R191: 3584 bytes are the largest image. -/
theorem test_rom_of_3584_bytes_is_admitted : romWellFormed (List.replicate 3584 0#8) = true := by decide +kernel

theorem test_rom_of_3585_bytes_is_refused : romWellFormed (List.replicate 3585 0#8) = false := by decide +kernel

/-- 30_encoding.md R77: the assembler's spelling of `5xy0` and `9xy0`. -/
theorem test_words_5120_and_9AB0_are_canonical : canonicalWord 0x5120#16 = true ∧ canonicalWord 0x9AB0#16 = true := by decide

theorem test_word_512F_is_not_canonical : canonicalWord 0x512F#16 = false := by decide

theorem test_word_9AB7_is_not_canonical : canonicalWord 0x9AB7#16 = false := by decide

/-- Operand fields have their width in their type, so there is no ill-formed instruction. -/
theorem test_every_field_value_is_legal : Instr.wellFormed (.drw 15#4 15#4 15#4) = true := by decide

/-! ### Decoding: words written bit by bit from 30_encoding.md R71, R75 -/

theorem test_decode_family_0 :
    decodeWord 0b0000_0000_1110_0000#16 = some .cls ∧ decodeWord 0b0000_0000_1110_1110#16 = some .ret := by decide

theorem test_decode_jumps_and_calls :
    decodeWord 0b0001_1010_1011_1100#16 = some (.jp 0xABC#12) ∧ decodeWord 0b0010_1010_1011_1100#16 = some (.call 0xABC#12) ∧
    decodeWord 0b1011_1111_1111_1110#16 = some (.jpV0 0xFFE#12) := by decide

theorem test_decode_skips :
    decodeWord 0b0011_0011_0010_1010#16 = some (.seImm 3#4 0x2A#8) ∧
    decodeWord 0b0100_0011_0010_1010#16 = some (.sneImm 3#4 0x2A#8) ∧
    decodeWord 0b0101_0001_0010_0000#16 = some (.seReg 1#4 2#4) ∧
    decodeWord 0b1001_1010_1011_0000#16 = some (.sneReg 0xA#4 0xB#4) := by decide

theorem test_decode_immediates :
    decodeWord 0b0110_1010_0000_0010#16 = some (.ldImm 0xA#4 0x02#8) ∧
    decodeWord 0b0111_1010_0000_0011#16 = some (.addImm 0xA#4 0x03#8) ∧
    decodeWord 0b1100_0001_0000_1111#16 = some (.rnd 1#4 0x0F#8) ∧
    decodeWord 0b1010_0010_1111_0000#16 = some (.ldI 0x2F0#12) := by decide

theorem test_decode_alu_low :
    decodeWord 0b1000_0001_0010_0000#16 = some (.ldReg 1#4 2#4) ∧ decodeWord 0b1000_0001_0010_0001#16 = some (.orReg 1#4 2#4) ∧
    decodeWord 0b1000_0001_0010_0010#16 = some (.andReg 1#4 2#4) ∧ decodeWord 0b1000_0001_0010_0011#16 = some (.xorReg 1#4 2#4) ∧
    decodeWord 0b1000_0001_0010_0100#16 = some (.addReg 1#4 2#4) := by decide

theorem test_decode_alu_high :
    decodeWord 0b1000_0001_0010_0101#16 = some (.subReg 1#4 2#4) ∧ decodeWord 0b1000_0001_0010_0110#16 = some (.shr 1#4 2#4) ∧
    decodeWord 0b1000_0001_0010_0111#16 = some (.subn 1#4 2#4) ∧ decodeWord 0b1000_0001_0010_1110#16 = some (.shl 1#4 2#4) := by decide

theorem test_decode_display_and_keys :
    decodeWord 0b1101_0001_0010_1111#16 = some (.drw 1#4 2#4 15#4) ∧ decodeWord 0b1110_0001_1001_1110#16 = some (.skp 1#4) ∧
    decodeWord 0b1110_0001_1010_0001#16 = some (.sknp 1#4) := by decide

theorem test_decode_family_F_low :
    decodeWord 0b1111_0001_0000_0111#16 = some (.ldVxDT 1#4) ∧ decodeWord 0b1111_0001_0000_1010#16 = some (.ldVxK 1#4) ∧
    decodeWord 0b1111_0001_0001_0101#16 = some (.ldDTVx 1#4) ∧ decodeWord 0b1111_0001_0001_1000#16 = some (.ldSTVx 1#4) ∧
    decodeWord 0b1111_0001_0001_1110#16 = some (.addI 1#4) := by decide

theorem test_decode_family_F_high :
    decodeWord 0b1111_0001_0010_1001#16 = some (.ldF 1#4) ∧ decodeWord 0b1111_0001_0011_0011#16 = some (.ldB 1#4) ∧
    decodeWord 0b1111_0001_0101_0101#16 = some (.storeRegs 1#4) ∧ decodeWord 0b1111_0001_0110_0101#16 = some (.loadRegs 1#4) := by decide

/-- 95_test_vectors.md, 2.1: the low nibble of `5xyn` and `9xyn` is not examined. -/
theorem test_decode_ignores_the_low_nibble_of_5_and_9 :
    decodeWord 0x512F#16 = some (.seReg 1#4 2#4) ∧ decodeWord 0x9AB7#16 = some (.sneReg 0xA#4 0xB#4) := by decide

/-- 95_test_vectors.md, 2.1: words that are no instruction. -/
theorem test_unknown_words_of_families_0_and_8 :
    [0x0000#16, 0x00E1#16, 0x00EF#16, 0x0123#16, 0x01E0#16, 0x0FEE#16, 0x8128#16, 0x812D#16, 0x812F#16].map decodeWord =
      List.replicate 9 none := by decide

theorem test_unknown_words_of_families_E_and_F :
    [0xE19F#16, 0xE100#16, 0xE1A0#16, 0xF100#16, 0xF175#16, 0xF185#16, 0xF1FF#16, 0xF130#16, 0xF102#16].map decodeWord =
      List.replicate 9 none := by decide

/-- 95_test_vectors.md, 2.1: `A2 F0` is `LD I, 0x2F0`. -/
theorem test_bytes_decode_big_endian :
    decodeBytes [0xA2#8, 0xF0#8] = .instr (.ldI 0x2F0#12) ∧ decodeBytes [0xA2#8] = .truncated ∧
    decodeBytes [0x00#8, 0x00#8] = .unknownOpcode 0x0000#16 := by decide

/-- The word of each encoding format (30_encoding.md R72, R83). -/
theorem test_encode_writes_the_spec_words :
    encode (.call 0xABC#12) = 0x2ABC#16 ∧ encode (.subReg 1#4 2#4) = 0x8125#16 ∧ encode (.rnd 1#4 0x0F#8) = 0xC10F#16 ∧
    encode (.drw 1#4 2#4 15#4) = 0xD12F#16 ∧ encode (.loadRegs 3#4) = 0xF365#16 := by decide

/-! ### One step -/

/-- The state after one STEP of a word placed at `pc`. -/
def after (w : Nat) (s : State) : State :=
  match step (s.withFetchWord 16 w) with
  | .next t => t
  | .fault _ => s
  | .refused _ => s

/-- The reset state with some general registers set. -/
def regs (l : List (RegIdx × Byte)) : State := l.foldl (fun s p => s.setReg p.1 p.2) State.reset

/-- A state under another quirk profile. -/
def under (q : Quirks) (s : State) : State := { s with quirks := q }

/-- The profile with every parameter at its other value (00_scope.md R6). -/
def otherQuirks : Quirks := ⟨.vy, .advance, .wrap, .resultLast⟩

/-- A HALTED state: what reset becomes after its first STEP (95_test_vectors.md, 2.7). -/
def halted : State := HaltedFrom State.reset .unknownOpcode (some 0x0000#16)

/-- A BLOCKED state: `F30A` executed. -/
def waiting : State := after 0xF30A State.reset

/-- The reset state with a stack of `n` live slots, each holding 0x0ABC. -/
def stacked (n : Fin 17) : State := { State.reset with sp := n, stack := .replicate 16 0x0ABC#16 }

theorem test_reset_halts_on_the_empty_rom : step State.reset = .next halted := rfl

/-- 95_test_vectors.md, 2.2. -/
theorem test_jp : (after 0x1234 State.reset).pc = 0x0234#16 := by decide

theorem test_call_fills_the_last_slot :
    (after 0x2300 (stacked 15)).sp = 16 ∧ (after 0x2300 (stacked 15)).stack[15] = 0x0202#16 ∧
    (after 0x2300 (stacked 15)).pc = 0x0300#16 := by decide

theorem test_call_overflows_at_16 :
    (after 0x2300 (stacked 16)).status = .halted ⟨.stackOverflow, some 0x2300#16, 0x0200#16⟩ ∧
    (after 0x2300 (stacked 16)).pc = 0x0200#16 := by decide

theorem test_ret_pops :
    (after 0x00EE (stacked 1)).pc = 0x0ABC#16 ∧ (after 0x00EE (stacked 1)).sp = 0 ∧
    (after 0x00EE (stacked 1)).stack[0] = 0x0ABC#16 := by decide

theorem test_ret_underflows_at_0 :
    (after 0x00EE State.reset).status = .halted ⟨.stackUnderflow, some 0x00EE#16, 0x0200#16⟩ := by decide

theorem test_se_imm : (after 0x332A (regs [(3, 0x2A)])).pc = 0x0204#16 ∧ (after 0x332B (regs [(3, 0x2A)])).pc = 0x0202#16 := by decide

theorem test_sne_imm : (after 0x432A (regs [(3, 0x2A)])).pc = 0x0202#16 ∧ (after 0x432B (regs [(3, 0x2A)])).pc = 0x0204#16 := by decide

theorem test_se_reg :
    (after 0x5120 (regs [(1, 7), (2, 7)])).pc = 0x0204#16 ∧ (after 0x5120 (regs [(1, 7), (2, 8)])).pc = 0x0202#16 := by decide

theorem test_sne_reg : (after 0x9120 (regs [(1, 7), (2, 8)])).pc = 0x0204#16 ∧ (after 0x9110 (regs [(1, 7)])).pc = 0x0202#16 := by decide

theorem test_jp_v0_is_not_reduced : (after 0xBFFF (regs [(0, 0xFF), (15, 1)])).pc = 0x10FE#16 := by decide

theorem test_fetch_past_memory :
    step { State.reset with pc := 0x0FFF#16 } =
      .next { State.reset with pc := 0x0FFF#16, status := .halted ⟨.memoryOutOfBounds, none, 0x0FFF#16⟩ } := rfl

/-- 95_test_vectors.md, 2.3. -/
theorem test_ld_imm : (after 0x6AFF State.reset).reg 0xA = 0xFF#8 := by decide

theorem test_add_imm_wraps :
    (after 0x7102 (regs [(1, 0xFF)])).reg 1 = 0x01#8 ∧ (after 0x7102 (regs [(1, 0xFF)])).reg vf = 0#8 := by decide

theorem test_ld_reg : (after 0x8120 (regs [(2, 0x5A)])).reg 1 = 0x5A#8 := by decide

theorem test_or_leaves_vf :
    (after 0x8121 (regs [(1, 0xF0), (2, 0x0F), (15, 7)])).reg 1 = 0xFF#8 ∧
    (after 0x8121 (regs [(1, 0xF0), (2, 0x0F), (15, 7)])).reg vf = 7#8 := by decide

theorem test_and : (after 0x8122 (regs [(1, 0xF0), (2, 0x3C)])).reg 1 = 0x30#8 := by decide

theorem test_xor : (after 0x8123 (regs [(1, 0xF0), (2, 0x3C)])).reg 1 = 0xCC#8 := by decide

theorem test_add_carries :
    (after 0x8124 (regs [(1, 0xFF), (2, 0x01)])).reg 1 = 0x00#8 ∧ (after 0x8124 (regs [(1, 0xFF), (2, 0x01)])).reg vf = 1#8 := by decide

theorem test_add_into_vf :
    (after 0x8F14 (regs [(15, 0xF0), (1, 0x20)])).reg vf = 0x01#8 ∧
    (after 0x8F14 (under otherQuirks (regs [(15, 0xF0), (1, 0x20)]))).reg vf = 0x10#8 := by decide

theorem test_sub_borrows :
    (after 0x8125 (regs [(1, 0x01), (2, 0x02)])).reg 1 = 0xFF#8 ∧ (after 0x8125 (regs [(1, 0x01), (2, 0x02)])).reg vf = 0#8 := by decide

theorem test_sub_equal_sets_the_flag :
    (after 0x8125 (regs [(1, 5), (2, 5)])).reg 1 = 0#8 ∧ (after 0x8125 (regs [(1, 5), (2, 5)])).reg vf = 1#8 := by decide

theorem test_shr_source :
    (after 0x8126 (regs [(1, 0xFF), (2, 0x04)])).reg 1 = 0x7F#8 ∧ (after 0x8126 (regs [(1, 0xFF), (2, 0x04)])).reg vf = 1#8 ∧
    (after 0x8126 (under otherQuirks (regs [(1, 0xFF), (2, 0x04)]))).reg 1 = 0x02#8 ∧
    (after 0x8126 (under otherQuirks (regs [(1, 0xFF), (2, 0x04)]))).reg vf = 0#8 := by decide

theorem test_subn :
    (after 0x8127 (regs [(1, 0x05), (2, 0x02)])).reg 1 = 0xFD#8 ∧ (after 0x8127 (regs [(1, 0x05), (2, 0x02)])).reg vf = 0#8 := by decide

theorem test_shl_source :
    (after 0x812E (regs [(1, 0x01), (2, 0xC0)])).reg 1 = 0x02#8 ∧ (after 0x812E (regs [(1, 0x01), (2, 0xC0)])).reg vf = 0#8 ∧
    (after 0x812E (under otherQuirks (regs [(1, 0x01), (2, 0xC0)]))).reg 1 = 0x80#8 ∧
    (after 0x812E (under otherQuirks (regs [(1, 0x01), (2, 0xC0)]))).reg vf = 1#8 := by decide

theorem test_rnd_masks_the_injected_byte :
    (after 0xC10F { State.reset with randIn := [0xB7#8] }).reg 1 = 0x07#8 ∧
    (after 0xC10F { State.reset with randIn := [0xB7#8] }).randIn = [] := by decide

/-- 95_test_vectors.md, 2.4. -/
theorem test_ld_i : (after 0xA2F0 State.reset).i = 0x02F0#16 := by decide

theorem test_add_i_wraps : (after 0xF21E (State.setIndex (regs [(2, 2)]) 0xFFFF#16)).i = 0x0001#16 := by decide

theorem test_ld_f_does_not_mask : (after 0xF329 (regs [(3, 0x0A)])).i = 50#16 ∧ (after 0xF329 (regs [(3, 0xFF)])).i = 1275#16 := by decide

theorem test_bcd_157 :
    (after 0xF333 (State.setIndex (regs [(3, 157)]) 0x0300#16)).mem.bytesFrom 0x300 3 = [1#8, 5#8, 7#8] := by decide

theorem test_bcd_bounds :
    (after 0xF333 (State.setIndex (regs [(3, 123)]) 4093#16)).mem.bytesFrom 4093 3 = [1#8, 2#8, 3#8] ∧
    (after 0xF333 (State.setIndex (regs [(3, 123)]) 4094#16)).status = .halted ⟨.memoryOutOfBounds, some 0xF333#16, 0x0200#16⟩ ∧
    (after 0xF333 (State.setIndex (regs [(3, 123)]) 4094#16)).mem.bytesFrom 4094 2 = [0#8, 0#8] := by decide

theorem test_dump :
    (after 0xF255 (State.setIndex (regs [(0, 1), (1, 2), (2, 3), (3, 4)]) 0x0300#16)).mem.bytesFrom 0x300 4 = [1#8, 2#8, 3#8, 0#8] ∧
    (after 0xF255 (State.setIndex (regs [(0, 1)]) 0x0300#16)).i = 0x0300#16 ∧
    (after 0xF255 (under otherQuirks (State.setIndex (regs [(0, 1)]) 0x0300#16))).i = 0x0303#16 := by decide

theorem test_dump_bounds :
    (after 0xFF55 (State.setIndex (regs [(15, 9)]) 4080#16)).mem.byteAt 4095 = 9#8 ∧
    (after 0xFF55 (State.setIndex (regs [(0, 9)]) 4081#16)).status = .halted ⟨.memoryOutOfBounds, some 0xFF55#16, 0x0200#16⟩ := by decide

theorem test_load_reads_the_font :
    ((after 0xF465 State.reset).regsUpTo 5) = [0xF0#8, 0x90#8, 0x90#8, 0x90#8, 0xF0#8, 0x00#8] := by decide

theorem test_load_bounds :
    (after 0xF665 (State.setIndex State.reset 4090#16)).status = .halted ⟨.memoryOutOfBounds, some 0xF665#16, 0x0200#16⟩ := by decide

/-- A state whose memory holds the bytes from 0x300, and `I` there (95_test_vectors.md, 2.5). -/
def sprite (bytes : List Byte) (s : State) : State :=
  { s with i := 0x0300#16, mem := s.mem.putFrom 0x300 bytes }

/-- The last eight and the first four cells of a row. -/
def rowEnds (s : State) (r : Fin 32) : List Bool × List Bool := ((s.fb[r]).toList.drop 56, (s.fb[r]).toList.take 4)

/-- 95_test_vectors.md, 2.5: a sprite at column 60. -/
theorem test_draw_clips :
    rowEnds (after 0xD011 (sprite [0xFF#8] (regs [(0, 60)]))) 0 =
      ([false, false, false, false, true, true, true, true], [false, false, false, false]) := by decide +kernel

theorem test_draw_wraps :
    rowEnds (after 0xD011 (under otherQuirks (sprite [0xFF#8] (regs [(0, 60)])))) 0 =
      ([false, false, false, false, true, true, true, true], [true, true, true, true]) := by decide +kernel

/-- 95_test_vectors.md, S6: the second draw turns the pixel off and sets VF. -/
theorem test_draw_twice_collides :
    (after 0xD011 (after 0xD011 (sprite [0x80#8] State.reset))).reg vf = 1#8 ∧
    (after 0xD011 (sprite [0x80#8] State.reset)).reg vf = 0#8 ∧
    (after 0xD011 (sprite [0x80#8] State.reset)).pixel 0 0 = true := by decide +kernel

theorem test_draw_bounds :
    (after 0xD012 (State.setIndex State.reset 4095#16)).status = .halted ⟨.memoryOutOfBounds, some 0xD012#16, 0x0200#16⟩ ∧
    (after 0xD010 (State.setIndex (regs [(15, 9)]) 0xFFFF#16)).reg vf = 0#8 := by decide +kernel

theorem test_cls : (after 0x00E0 (after 0xD011 (sprite [0x80#8] State.reset))).fb = State.reset.fb := by decide +kernel

/-- A state with one key down. -/
def keyDown (k : Nibble) (s : State) : State := s.setKeyCell k true

/-- 95_test_vectors.md, 2.6. -/
theorem test_skp :
    (after 0xE29E (keyDown 5 (regs [(2, 5)]))).pc = 0x0204#16 ∧ (after 0xE29E (regs [(2, 5)])).pc = 0x0202#16 := by decide

theorem test_sknp :
    (after 0xE2A1 (keyDown 5 (regs [(2, 5)]))).pc = 0x0202#16 ∧ (after 0xE2A1 (regs [(2, 5)])).pc = 0x0204#16 := by decide

theorem test_key_index_16 :
    (after 0xE29E (regs [(2, 0x10)])).status = .halted ⟨.keyIndexOutOfRange, some 0xE29E#16, 0x0200#16⟩ ∧
    (after 0xE2A1 (regs [(2, 0x10)])).status = .halted ⟨.keyIndexOutOfRange, some 0xE2A1#16, 0x0200#16⟩ := by decide

theorem test_ld_vx_dt : (after 0xF307 (State.reset.setDelay 0x2C#8)).reg 3 = 0x2C#8 := by decide

theorem test_ld_dt_vx : (after 0xF315 (regs [(3, 60)])).dt = 60#8 := by decide

theorem test_ld_st_vx : (after 0xF318 (regs [(3, 2)])).st = 2#8 ∧ (after 0xF318 (regs [(3, 2)])).toneActive = true := by decide

theorem test_ld_vx_k : waiting.wait = some 3#4 ∧ waiting.status = .blocked ∧ waiting.pc = 0x0202#16 := by decide

/-! ### Events -/

/-- The state after some events. -/
def afterEvents (es : List Event) (s : State) : State :=
  match applyEvents es s with
  | .next t => t
  | .fault _ => s
  | .refused _ => s

/-- 95_test_vectors.md, 2.6: TICK three times from `DT` = 2, `ST` = 1. -/
theorem test_tick_floors_at_0 :
    (afterEvents [.tick, .tick, .tick] ((State.reset.setDelay 2#8).setSound 1#8)).dt = 0#8 ∧
    (afterEvents [.tick] ((State.reset.setDelay 2#8).setSound 1#8)).dt = 1#8 ∧
    (afterEvents [.tick] ((State.reset.setDelay 2#8).setSound 1#8)).toneActive = false := by decide

/-- 95_test_vectors.md, S9. -/
theorem test_key_wait_ends_on_a_press :
    (afterEvents [.step 0#8, .setKey 7 true] waiting).reg 3 = 7#8 ∧ (afterEvents [.step 0#8, .setKey 7 true] waiting).wait = none ∧
    (afterEvents [.step 0#8, .setKey 7 true] waiting).result = .ok := by decide

/-- 95_test_vectors.md, 2.6: a key already down is no edge; release and press is one. -/
theorem test_held_key_is_no_edge :
    (afterEvents [.setKey 7 true] (keyDown 7 waiting)).status = .blocked ∧
    (afterEvents [.setKey 7 false, .setKey 7 true] (keyDown 7 waiting)).reg 3 = 7#8 := by decide

/-- 95_test_vectors.md, 2.6: HALTED. -/
theorem test_halted_ignores_events :
    afterEvents [.step 0#8, .tick, .setKey 1 true] halted = halted ∧ halted.result = .fatal ⟨.unknownOpcode, some 0#16, 0x0200#16⟩ := by
  decide

/-- 70_reset_and_hazards.md R190: RESET from HALTED, two ROM bytes. -/
theorem test_reset_loads_the_rom :
    (afterEvents [.reset [0x22#8, 0x00#8] otherQuirks defaultFont] halted).mem = [(512, 0x22#8)] ∧
    (afterEvents [.reset [0x22#8, 0x00#8] otherQuirks defaultFont] halted).status = .running ∧
    (afterEvents [.reset [0x22#8, 0x00#8] otherQuirks defaultFont] halted).quirks = otherQuirks := by decide +kernel

theorem test_step_event_uses_its_byte :
    (afterEvents [.step 0xB7#8] (State.reset.withFetchWord 16 0xC1FF)).reg 1 = 0xB7#8 := by decide

/-! ### The host's probe -/

theorem test_decode_table_word : decodeTableWord 16 0xD12F = some (.drw 1#4 2#4 15#4) ∧ decodeTableWord 16 0 = none := by decide

theorem test_with_fetch_word_runs_it :
    step (State.reset.withFetchWord 16 0x6A02) = exec (.ldImm 0xA#4 2#8) (State.reset.withFetchWord 16 0x6A02) := rfl

/-! ### Witnesses: for each statement with hypotheses, states and operands that meet them, one theorem for each clause -/

/-- A state with a word at `pc` = 0x0200. -/
def holding (w : Nat) : State := State.reset.withFetchWord 16 w

/-- `I` at an address. -/
def indexed (a : Word) : State := State.reset.setIndex a

/-- `pc` at an address. -/
def at' (a : Word) : State := State.reset.setPc a

theorem witness_DecodeInvertsEncode : Instr.wellFormed (.loadRegs 15#4) = true := by decide

theorem witness_EncodeInvertsDecodeOnCanonicalWords :
    (decodeWord 0x5120#16 = some (.seReg 1#4 2#4) ∧ canonicalWord 0x5120#16 = true) ∧
    (decodeWord 0x5121#16 = some (.seReg 1#4 2#4) ∧ canonicalWord 0x5121#16 = false) := by decide

theorem witness_DecodeFollowsTheOpcodeMap :
    decodeWord 0x8124#16 = some (.addReg 1#4 2#4) ∧ Instr.row (.addReg 1#4 2#4) ∈ opcodeTable ∧ decodeWord 0x0000#16 = none := by decide

theorem witness_FetchIsBigEndian :
    (at' 4094#16).pc.toNat ≤ 4094 ∧ ([0xA2#8, 0xF0#8].length ≤ 3584 ∧ 2 * 0 + 1 < [0xA2#8, 0xF0#8].length) := by decide

theorem witness_StepRunsTheDecodedInstruction :
    (holding 0x8124).status = .running ∧ (holding 0x8124).pc.toNat ≤ 4094 ∧ Instr.wellFormed (.addReg 1#4 2#4) = true ∧
    decodeWord (BitVec.ofNat 16 (((holding 0x8124).mem.byteAt (holding 0x8124).pc.toNat).toNat * 256 +
      ((holding 0x8124).mem.byteAt ((holding 0x8124).pc.toNat + 1)).toNat)) = some (.addReg 1#4 2#4) := by decide

theorem witness_StepOnUnknownOpcodeHalts :
    (holding 0x812F).status = .running ∧ (holding 0x812F).fetch = some 0x812F#16 ∧ decodeWord 0x812F#16 = none := by decide

theorem witness_FetchPastMemoryHalts :
    ((at' 4095#16).status = .running ∧ 4094 < (at' 4095#16).pc.toNat) ∧ (at' 4094#16).pc.toNat ≤ 4094 := by decide

theorem witness_StepOutsideRunningChangesNothing : waiting.status ≠ .running ∧ halted.status ≠ .running := by decide

theorem witness_FatalConditionsArePrecise_decode :
    State.reset.status = .running ∧ step State.reset = .next halted ∧ halted.status = .halted ⟨.unknownOpcode, some 0#16, 0x0200#16⟩ :=
  ⟨rfl, rfl, rfl⟩

theorem witness_FatalConditionsArePrecise_fetch :
    (at' 4095#16).status = .running ∧ step (at' 4095#16) = .next (HaltedFrom (at' 4095#16) .memoryOutOfBounds none) ∧
    (HaltedFrom (at' 4095#16) .memoryOutOfBounds none).status = .halted ⟨.memoryOutOfBounds, none, 4095#16⟩ :=
  ⟨rfl, rfl, rfl⟩

/-- What an instruction's meaning leaves of a state. -/
def ran (i : Instr) (s : State) : State :=
  match exec i s with
  | .next t => t
  | .fault _ => s
  | .refused _ => s

/-- One witness for each instruction that can end in HALTED, at the first value past its bound. -/
theorem witness_FatalConditionsByInstruction :
    State.reset.status = .running ∧ (indexed 4095#16).status = .running ∧ (regs [(2, 16)]).status = .running ∧
    (ran .ret State.reset).status = .halted ⟨.stackUnderflow, some 0x00EE#16, 0x0200#16⟩ ∧
    (ran (.call 0x300#12) (stacked 16)).status = .halted ⟨.stackOverflow, some 0x2300#16, 0x0200#16⟩ ∧
    (ran (.drw 0#4 1#4 2#4) (indexed 4095#16)).status = .halted ⟨.memoryOutOfBounds, some 0xD012#16, 0x0200#16⟩ ∧
    (ran (.ldB 3#4) (indexed 4094#16)).status = .halted ⟨.memoryOutOfBounds, some 0xF333#16, 0x0200#16⟩ ∧
    (ran (.storeRegs 15#4) (indexed 4081#16)).status = .halted ⟨.memoryOutOfBounds, some 0xFF55#16, 0x0200#16⟩ ∧
    (ran (.loadRegs 15#4) (indexed 4081#16)).status = .halted ⟨.memoryOutOfBounds, some 0xFF65#16, 0x0200#16⟩ ∧
    (ran (.skp 2#4) (regs [(2, 16)])).status = .halted ⟨.keyIndexOutOfRange, some 0xE29E#16, 0x0200#16⟩ ∧
    (ran (.sknp 2#4) (regs [(2, 16)])).status = .halted ⟨.keyIndexOutOfRange, some 0xE2A1#16, 0x0200#16⟩ := by decide

theorem witness_ReturnPopsTheStack : (stacked 1).sp.val ≠ 0 ∧ (stacked 16).sp.val ≠ 0 ∧ (stacked 0).sp.val = 0 := by decide

theorem witness_CallPushesTheNextAddress :
    0x2ABC#16 &&& 0xF000#16 = 0x2000#16 ∧ (stacked 0).sp.val < 16 ∧ (stacked 15).sp.val < 16 ∧ (stacked 16).sp.val = 16 := by decide

theorem witness_SkipsAddFourOrTwo :
    (regs [(3, 0x2A)]).reg 3 = 0x2A#8 ∧ (regs [(3, 0x2A)]).reg 3 ≠ 0x2B#8 ∧
    (regs [(1, 7), (2, 7)]).reg 1 = (regs [(1, 7), (2, 7)]).reg 2 ∧ (regs [(1, 7), (2, 8)]).reg 1 ≠ (regs [(1, 7), (2, 8)]).reg 2 := by
  decide

theorem witness_CallThenReturnRestoresPcAndDepth :
    (stacked 15).sp.val < 16 ∧ exec (.call 0x300#12) (stacked 15) = .next (ran (.call 0x300#12) (stacked 15)) ∧
    (ran (.call 0x300#12) (stacked 15)).sp = 16 := ⟨by decide, rfl, by decide⟩

theorem witness_SelfJumpIsAFixedPointOfStep : (holding 0x1200).AtEnd := ⟨rfl, 0x200#12, by decide, by decide⟩

theorem witness_PcChangesOnlyByControlTransfer :
    (stacked 1).status = .running ∧ exec .ret (stacked 1) = .next (ran .ret (stacked 1)) ∧ (ran .ret (stacked 1)).Safe :=
  ⟨rfl, rfl, (fun _ h => nomatch h)⟩

theorem witness_LoadImmediateSetsVx : 0x6A02#16 &&& 0xF000#16 = 0x6000#16 := by decide

theorem witness_AddImmediateWrapsWithoutFlag : 0x7F03#16 &&& 0xF000#16 = 0x7000#16 := by decide

/-- The encodings, and the three clauses of the result and the flag: `x` not VF, and `x` VF under each order. -/
theorem witness_AddSetsSumAndCarry :
    0x8124#16 &&& 0xF00F#16 = 0x8004#16 ∧ 1#4 ≠ vf ∧ State.reset.quirks.vfOrder = .flagLast ∧
    (under otherQuirks State.reset).quirks.vfOrder = .resultLast := by decide

theorem witness_SubtractSetsDifferenceAndNoBorrow :
    0x8125#16 &&& 0xF00F#16 = 0x8005#16 ∧ 14#4 ≠ vf ∧ State.reset.quirks.vfOrder = .flagLast ∧
    (under otherQuirks State.reset).quirks.vfOrder = .resultLast := by decide

theorem witness_ShiftsMoveOnePlace :
    (255 = (if (regs [(1, 0xFF), (2, 4)]).quirks.shiftSource = .vx then (regs [(1, 0xFF), (2, 4)]).reg 1
      else (regs [(1, 0xFF), (2, 4)]).reg 2).toNat) ∧
    (4 = (if (under otherQuirks (regs [(1, 0xFF), (2, 4)])).quirks.shiftSource = .vx then (regs [(1, 0xFF), (2, 4)]).reg 1
      else (regs [(1, 0xFF), (2, 4)]).reg 2).toNat) := by decide

theorem witness_RandomAndMaskSetsVx :
    ({ State.reset with randIn := [0xB7#8] } : State).randIn = 0xB7#8 :: [] ∧ State.reset.randIn = [] := by decide

theorem witness_StepEventUsesItsByteOnlyForRandom :
    ((holding 0xC10F).status = .running ∧ (holding 0xC10F).fetch = some 0xC10F#16 ∧ decodeWord 0xC10F#16 = some (.rnd 1#4 0x0F#8)) ∧
    ((holding 0x1200).fetch = some 0x1200#16 ∧ decodeWord 0x1200#16 = some (.jp 0x200#12)) := by decide

/-- A BLOCKED and a HALTED state with a `Cxkk` at `pc` meet the hypothesis of the second clause. -/
theorem witness_StepEventUsesItsByteOnlyForRandom_not_running :
    (State.beginWait (holding 0xC10F) 3#4).fetch = some 0xC10F#16 ∧ (State.beginWait (holding 0xC10F) 3#4).status ≠ .running ∧
    (HaltedFrom (holding 0xC10F) .unknownOpcode none).fetch = some 0xC10F#16 ∧
    (HaltedFrom (holding 0xC10F) .unknownOpcode none).status ≠ .running := by decide

theorem witness_VfChangesOnlyByFlagWriters_frame :
    exec (.loadRegs 14#4) State.reset = .next (ran (.loadRegs 14#4) State.reset) ∧ ¬ WritesFlag (.loadRegs 14#4) ∧
    ¬ IsDestination (.loadRegs 14#4) vf := ⟨rfl, id, by simp [IsDestination]⟩

theorem witness_VfChangesOnlyByFlagWriters_flag :
    exec (.addReg 14#4 15#4) State.reset = .next (ran (.addReg 14#4 15#4) State.reset) ∧
    (ran (.addReg 14#4 15#4) State.reset).Safe ∧ WritesFlag (.addReg 14#4 15#4) ∧ ¬ IsDestination (.addReg 14#4 15#4) vf :=
  ⟨rfl, (fun _ h => nomatch h), trivial, by simp [IsDestination, vf]⟩

theorem witness_StoreBcdWritesThreeDigits :
    0xF333#16 &&& 0xF0FF#16 = 0xF033#16 ∧ ((indexed 4093#16).mem.wf = true ∧ (indexed 4093#16).i.toNat + 2 ≤ 4095) ∧
    4095 < (indexed 4094#16).i.toNat + 2 := by decide

theorem witness_RegisterDumpStoresTheBlock :
    ((indexed 4080#16).mem.wf = true ∧ (indexed 4080#16).i.toNat + (15#4).toNat ≤ 4095) ∧
    (indexed 4080#16).quirks.indexAdvance = .unchanged ∧ (under otherQuirks (indexed 4080#16)).quirks.indexAdvance = .advance ∧
    4095 < (indexed 4081#16).i.toNat + (15#4).toNat := by decide

theorem witness_RegisterLoadReadsTheBlock :
    (indexed 4095#16).i.toNat + (0#4).toNat ≤ 4095 ∧ (indexed 4080#16).quirks.indexAdvance = .unchanged ∧
    (under otherQuirks (indexed 4080#16)).quirks.indexAdvance = .advance ∧ 4095 < (indexed 4096#16).i.toNat + (0#4).toNat := by decide

theorem witness_MemoryReadsBackWhatWasWritten :
    State.reset.mem.wf = true ∧ (State.reset.memWrite 4093 [1#8, 2#8, 3#8]).isSome = true ∧
    (State.reset.memWrite 4094 [1#8, 2#8, 3#8]).isSome = false := by decide

theorem witness_CanonicalMemoriesWithEqualBytesAreEqual :
    Memory.wf [(0x200, 0x12#8), (0xFFF, 1#8)] = true ∧
    Memory.put [(0x200, 0x12#8)] 0xFFF 1#8 = [(0x200, 0x12#8), (0xFFF, 1#8)] := by decide

/-- Both stores at their last address, and fetches inside a block, across its two ends and at the last fetchable address. -/
theorem witness_StoresAreSeenByTheNextFetch :
    ((indexed 4093#16).mem.wf = true ∧ (indexed 4093#16).i.toNat + 2 ≤ 4095 ∧ (4092#16).toNat ≤ 4094 ∧ (4094#16).toNat ≤ 4094) ∧
    ((indexed 4095#16).mem.wf = true ∧ (indexed 4095#16).i.toNat + (0#4).toNat ≤ 4095) ∧
    ((indexed 4080#16).mem.wf = true ∧ (indexed 4080#16).i.toNat + (15#4).toNat ≤ 4095) := by decide

/-- 20_memory.md R62: a fetch after a one-byte `F055` at 0x300 that straddles the block's end, and one that straddles its start. -/
theorem test_fetch_straddles_a_stored_byte :
    (after 0xF055 (State.setIndex (regs [(0, 0xAB)]) 0x300#16) |>.setPc 0x300#16).fetch = some 0xAB00#16 ∧
    (after 0xF055 (State.setIndex (regs [(0, 0xAB)]) 0x300#16) |>.setPc 0x2FF#16).fetch = some 0x00AB#16 := by decide

/-- Inside the bound with one row and with none, and past it. -/
theorem witness_DrawInvertsTheCoveredCells_bounds :
    ((indexed 4095#16).i.toNat + (1#4).toNat - 1 ≤ 4095) ∧ (0#4 = 0#4 ∧ 4095 < (indexed 0xFFFF#16).i.toNat) ∧
    (2#4 ≠ 0#4 ∧ 4095 < (indexed 4095#16).i.toNat + (2#4).toNat - 1) := by decide

/-- A draw with a collision, and one with none. -/
theorem witness_DrawInvertsTheCoveredCells_collision :
    ((ran (.drw 0#4 1#4 1#4) (sprite [0x80#8] State.reset)).pixel 0 0 = true ∧
      (ran (.drw 0#4 1#4 1#4) (ran (.drw 0#4 1#4 1#4) (sprite [0x80#8] State.reset))).pixel 0 0 = false) ∧
    (∀ r c, (sprite [0x80#8] State.reset).pixel r c = true →
      (ran (.drw 0#4 1#4 1#4) (sprite [0x80#8] State.reset)).pixel r c = true) := by
  refine ⟨by decide +kernel, fun r c h => ?_⟩
  have hb : (sprite [0x80#8] State.reset).pixel r c = false := by simp [State.pixel, sprite, State.reset]
  rw [hb] at h; cases h

theorem witness_DrawingTwiceRestoresTheScreen :
    0#4 ≠ vf ∧ 1#4 ≠ vf ∧ (sprite [0x80#8] State.reset).i.toNat + (1#4).toNat - 1 ≤ 4095 ∧
    exec (.drw 0#4 1#4 1#4) (sprite [0x80#8] State.reset) = .next (ran (.drw 0#4 1#4 1#4) (sprite [0x80#8] State.reset)) :=
  ⟨by decide, by decide, by decide, rfl⟩

theorem witness_KeySkipsSampleTheKeypad :
    (((keyDown 15 (regs [(2, 15)])).reg 2).toNat < 16 ∧ (keyDown 15 (regs [(2, 15)])).keypad[15] = true ∧
      (regs [(2, 15)]).keypad[15] = false) ∧ 15 < ((regs [(2, 16)]).reg 2).toNat := by decide

theorem witness_TickCountsBothTimersDown :
    (State.reset.setDelay 1#8).Safe ∧ waiting.Safe ∧ halted.status = .halted ⟨.unknownOpcode, some 0#16, 0x0200#16⟩ :=
  ⟨(fun _ h => nomatch h), (fun _ h => nomatch h), rfl⟩

/-- A press edge that ends a wait; a release, a key already down, a press with no wait; HALTED. -/
theorem witness_SetKeyResolvesTheWaitOnAPressEdge :
    waiting.Safe ∧ (waiting.key 7 = false ∧ waiting.wait = some 3#4) ∧ (keyDown 7 waiting).key 7 = true ∧ State.reset.wait = none ∧
    halted.status = .halted ⟨.unknownOpcode, some 0#16, 0x0200#16⟩ :=
  ⟨(fun _ h => nomatch h), by decide, by decide, rfl, rfl⟩

theorem witness_BlockedUntilAPressEvent :
    waiting.status = .blocked ∧
    (∀ e ∈ ([.step 0#8, .tick, .setKey 7#4 false] : List Event),
      (∃ r, e = .step r) ∨ e = .tick ∨ (∃ k, e = .setKey k false)) ∧
    applyEvents [.step 0#8, .tick, .setKey 7#4 false] waiting =
      .next (afterEvents [.step 0#8, .tick, .setKey 7#4 false] waiting) := ⟨rfl, by simp, rfl⟩

theorem witness_KeyWaitEndsWithTheKeyIndex :
    exec (.ldVxK 15#4) State.reset = .next (ran (.ldVxK 15#4) State.reset) ∧ State.reset.key 0 = false ∧
    (∀ e ∈ ([.step 0#8, .step 255#8] : List Event), ∃ r, e = .step r) := ⟨rfl, by decide, by simp⟩

theorem witness_HaltedIsAbsorbing :
    halted.status = .halted ⟨.unknownOpcode, some 0#16, 0x0200#16⟩ ∧
    (∀ ev ∈ ([.step 0#8, .tick, .setKey 1#4 true] : List Event), ∀ rom q font, ev ≠ .reset rom q font) := ⟨rfl, by simp⟩

theorem witness_ResetValuesAreTheTable :
    (List.replicate 3584 0xAB#8).length ≤ 3584 ∧ ([] : List Byte).length ≤ 3584 ∧ 79 < 80 ∧ 511 < 512 := by decide +kernel

theorem witness_ResetLatchesTheQuirkProfile :
    (halted.randIn = [] ∧ halted.draws = 0) ∧
    applyEvent (.reset [] otherQuirks defaultFont) halted = .next (halted.afterReset [] otherQuirks defaultFont) ∧
    ((∀ rom q font, Event.tick ≠ .reset rom q font) ∧ applyEvent .tick (under otherQuirks State.reset) =
      .next (afterEvents [.tick] (under otherQuirks State.reset))) :=
  ⟨⟨rfl, rfl⟩, rfl, (fun _ _ _ h => nomatch h), rfl⟩

theorem witness_OnlyOversizedImagesAreRefused :
    3584 < (List.replicate 3585 0#8).length ∧ (List.replicate 3584 0#8).length ≤ 3584 := by decide +kernel

/-- A change of each piece of state that the statement names. -/
theorem witness_StateChangesOnlyByItsWriters :
    (ran (.call 0x300#12) State.reset).stack ≠ State.reset.stack ∧ (ran (.call 0x300#12) State.reset).sp ≠ State.reset.sp ∧
    (ran (.ldI 1#12) State.reset).i ≠ State.reset.i ∧ (ran (.ldDTVx 1#4) (regs [(1, 1)])).dt ≠ (regs [(1, 1)]).dt ∧
    (ran (.ldSTVx 1#4) (regs [(1, 1)])).st ≠ (regs [(1, 1)]).st ∧ (ran (.ldVxK 1#4) State.reset).wait ≠ State.reset.wait ∧
    (ran (.drw 0#4 0#4 1#4) State.reset).fb ≠ State.reset.fb ∧ (ran (.ldImm 1#4 1#8) State.reset).reg 1 ≠ State.reset.reg 1 ∧
    (ran (.ldB 1#4) (indexed 0x300#16)).mem.byteAt 0x302 = (indexed 0x300#16).mem.byteAt 0x302 ∧
    (ran (.ldB 1#4) (State.setIndex (regs [(1, 7)]) 0x300#16)).mem.byteAt 0x302 ≠ (indexed 0x300#16).mem.byteAt 0x302 ∧
    (ran (.rnd 1#4 0#8) State.reset).draws ≠ State.reset.draws := by decide +kernel

/-- The other profile with one parameter put back. -/
def otherBut (f : Quirks → Quirks) : Quirks := f otherQuirks

/-- A parameter that is named, kept, with the other three changed: a shift with `x` not `y`, an addition into VF, a block transfer. -/
theorem witness_QuirksMatterOnlyWhereNamed_named :
    (NamesShiftSource (.shr 1#4 2#4) ∧ (otherBut fun q => { q with shiftSource := .vx }).shiftSource = State.reset.quirks.shiftSource ∧
      ¬ NamesVfOrder (.shr 1#4 2#4)) ∧
    (NamesVfOrder (.addReg 15#4 1#4) ∧ (otherBut fun q => { q with vfOrder := .flagLast }).vfOrder = State.reset.quirks.vfOrder) ∧
    (NamesIndexAdvance (.loadRegs 3#4) ∧
      (otherBut fun q => { q with indexAdvance := .unchanged }).indexAdvance = State.reset.quirks.indexAdvance) :=
  ⟨⟨show (1#4 : RegIdx) ≠ 2#4 by decide, rfl, show ¬ (1#4 : RegIdx) = vf by decide⟩, ⟨show (15#4 : RegIdx) = vf from rfl, rfl⟩, trivial, rfl⟩

/-- A sprite with a set pixel beyond column 63, one with a set pixel beyond row 31, and the other three parameters changed. -/
theorem witness_QuirksMatterOnlyWhereNamed_edge :
    NamesDrawEdge (sprite [0xC0#8] (regs [(0, 63)])) (.drw 0#4 1#4 1#4) ∧
    NamesDrawEdge (sprite [0x80#8] (regs [(1, 32)])) (.drw 0#4 1#4 1#4) ∧
    (otherBut fun q => { q with drawEdge := .clip }).drawEdge = State.reset.quirks.drawEdge :=
  ⟨⟨0, 1, by decide, by decide, by decide, by decide⟩, ⟨0, 0, by decide, by decide, by decide, by decide⟩, rfl⟩

/-- Where no parameter is named, every profile will do: a jump, a shift with `x` = `y`, a sprite whose set pixel is in the corner. -/
theorem witness_QuirksMatterOnlyWhereNamed_none :
    ¬ NamesShiftSource (.shl 1#4 1#4) ∧ ¬ NamesVfOrder (.shl 1#4 1#4) ∧ ¬ NamesIndexAdvance (.jp 0#12) ∧
    ¬ NamesDrawEdge (sprite [0x80#8] (regs [(0, 63), (1, 31)])) (.drw 0#4 1#4 1#4) := by
  refine ⟨fun h => h rfl, show ¬ (1#4 : RegIdx) = vf by decide, id, ?_⟩
  rintro ⟨row, col, hr, hc, h1, h2⟩
  obtain rfl : row = 0 := by have : (1#4).toNat = 1 := rfl; omega
  have : ∀ c : Fin 8, ((sprite [0x80#8] (regs [(0, 63), (1, 31)])).mem.byteAt
      ((sprite [0x80#8] (regs [(0, 63), (1, 31)])).i.toNat + 0)).getLsbD (7 - c.val) = true →
      ¬ (63 < ((sprite [0x80#8] (regs [(0, 63), (1, 31)])).reg 0).toNat + c.val ∨
        31 < ((sprite [0x80#8] (regs [(0, 63), (1, 31)])).reg 1).toNat + 0) := by decide
  exact this ⟨col, hc⟩ h1 h2

theorem witness_RandomBytesMatterOnlyForRandom : ∀ x kk, Instr.jp 0#12 ≠ .rnd x kk := (fun _ _ h => nomatch h)

/-- A BLOCKED state with one live return address. -/
theorem witness_EveryStepKeepsTheInvariant :
    (ran (.ldVxK 3#4) (stacked 1)).Inv ∧ step (ran (.ldVxK 3#4) (stacked 1)) = .next (ran (.ldVxK 3#4) (stacked 1)) := by
  refine ⟨⟨rfl, by decide, ?_, by decide, (fun _ h => nomatch h)⟩, rfl⟩
  have : ∀ j : Fin 16, ((ran (.ldVxK 3#4) (stacked 1)).stack[j.val]).toNat ≤ 4096 := by decide
  exact fun j h _ => this ⟨j, h⟩

theorem witness_EveryInterleavingKeepsTheInvariant :
    applyEvents [.tick, .step 0#8, .setKey 2#4 true] (ran (.ldVxK 3#4) (stacked 1)) =
      .next (afterEvents [.tick, .step 0#8, .setKey 2#4 true] (ran (.ldVxK 3#4) (stacked 1))) := rfl

end Sys2Proof.Tests
end

/-! SUPPORT. The quirk profile (00_scope.md R6): RESET latches it, and no instruction, no STEP and no other event changes it. -/

namespace Sys2Proof.Machine

/-! ### RESET (70_reset_and_hazards.md R190, R191) -/

/-- Storing into the reset memory the bytes that it holds already lists nothing. -/
theorem Memory.putFrom_nil_of_unlisted {bs : List Byte} {a : Nat}
    (h : ∀ (j : Nat) (hj : j < bs.length), bs[j] = Memory.unlisted (a + j)) : Memory.putFrom [] a bs = [] := by
  induction bs generalizing a with
  | nil => rfl
  | cons b bs ih =>
    have hput : Memory.put [] a b = [] := if_pos (h 0 (by simp))
    show (Memory.put [] a b).putFrom (a + 1) bs = []
    rw [hput]
    refine ih fun j hj => ?_
    have hnext := h (j + 1) (by simpa using hj)
    rwa [List.getElem_cons_succ, show a + (j + 1) = a + 1 + j by omega] at hnext

/-- The default font in its place is the reset memory (70_reset_and_hazards.md R192). -/
theorem Memory.putFrom_defaultFont : Memory.putFrom [] 0 defaultFont.toList = [] := by
  refine Memory.putFrom_nil_of_unlisted fun j hj => ?_
  have h80 : j < 80 := by simpa using hj
  rw [Vector.getElem_toList, Nat.zero_add, Memory.unlisted, dif_pos h80]

/-- RESET with no ROM image, the default profile and the default font gives `State.reset`, with the host's source of random
bytes as it was (log entry 5). -/
theorem State.afterReset_default (s : State) :
    s.afterReset [] Quirks.default defaultFont = { State.reset with randIn := s.randIn, draws := s.draws } := by
  unfold State.afterReset
  rw [Memory.putFrom_defaultFont]
  rfl

/-- RESET answers one next state only, the one of an image that fits. -/
theorem applyEvent_reset_next {rom : List Byte} {q : Quirks} {font : Vector Byte 80} {s t : State}
    (h : applyEvent (.reset rom q font) s = .next t) : rom.length ≤ 3584 ∧ t = s.afterReset rom q font := by
  by_cases hr : rom.length ≤ 3584
  · rw [applyEvent_reset q font s hr] at h
    cases h
    exact ⟨hr, rfl⟩
  · have hw : romWellFormed rom = false := by simpa [romWellFormed, Config.romMax] using hr
    simp [applyEvent, hw] at h

/-! ### The operations that may fail -/

theorem State.quirks_of_memWrite {s t : State} {a : Nat} {bs : List Byte} (h : t ∈ s.memWrite a bs) : t.quirks = s.quirks := by
  unfold State.memWrite at h
  split at h <;> cases h
  rfl

theorem State.quirks_of_pushReturn {s t : State} {a : Word} (h : t ∈ s.pushReturn a) : t.quirks = s.quirks := by
  unfold State.pushReturn at h
  split at h <;> cases h
  rfl

theorem State.quirks_of_popReturn {s t : State} (h : t ∈ s.popReturn) : t.quirks = s.quirks := by
  unfold State.popReturn at h
  split at h <;> cases h
  rfl

/-- The entry of a fatal condition keeps the profile, so an instruction with a check keeps it if its effect does. -/
theorem State.orRaise_quirks {s : State} {k : FatalKind} {i : Instr} {e : Option State}
    (h : ∀ u ∈ e, u.quirks = s.quirks) : (s.orRaise k i e).quirks = s.quirks := by
  obtain ⟨u, he, hu⟩ | ⟨-, hu⟩ := s.orRaise_cases k i e
  · rw [hu]; exact h u he
  · rw [hu, State.raiseFatal_quirks]

/-! ### Instructions and events -/

/-- No instruction changes the profile. -/
theorem exec_quirks {i : Instr} {s t : State} (h : exec i s = .next t) : t.quirks = s.quirks := by
  cases i with
  | ret => cases h; exact State.orRaise_quirks fun u hu => (State.quirks_of_popReturn hu).trans s.advance_quirks
  | call nnn =>
    cases h
    refine State.orRaise_quirks fun u hu => ?_
    obtain ⟨p, hp, rfl⟩ := Option.map_eq_some_iff.1 hu
    rw [State.setPc_quirks, State.quirks_of_pushReturn hp, State.advance_quirks]
  | ldB x => cases h; exact State.orRaise_quirks fun u hu => (State.quirks_of_memWrite hu).trans s.advance_quirks
  | storeRegs x =>
    cases h
    refine State.orRaise_quirks fun u hu => ?_
    obtain ⟨p, hp, rfl⟩ := Option.map_eq_some_iff.1 hu
    rw [State.advanceIndex_quirks, State.quirks_of_memWrite hp, State.advance_quirks]
  | loadRegs | drw | skp | sknp =>
    cases h
    refine State.orRaise_quirks fun u hu => ?_
    obtain ⟨p, -, rfl⟩ := Option.map_eq_some_iff.1 hu
    simp
  | cls | jp | seImm | sneImm | seReg | sneReg | jpV0 | ldImm | addImm | ldReg | orReg | andReg | xorReg | addReg | subReg | shr
  | subn | shl | rnd | ldI | addI | ldF | ldVxDT | ldVxK | ldDTVx | ldSTVx => cases h; simp

/-- No STEP changes the profile: it runs an instruction, halts or does nothing (40_step_cycle.md R90). -/
theorem step_quirks {s t : State} (h : step s = .next t) : t.quirks = s.quirks := by
  obtain ⟨-, rfl⟩ | ⟨-, -, rfl⟩ | ⟨w, -, -, -, -, rfl⟩ | ⟨w, i, -, -, -, -, hexec⟩ := step_cases h
  · rfl
  · rfl
  · rfl
  · exact exec_quirks hexec

/-- STEP(rand) answers what STEP answers with the byte injected, and the source of random bytes as it was
(40_step_cycle.md R95). -/
theorem applyEvent_step_next {s t : State} {r : Byte} (h : applyEvent (.step r) s = .next t) :
    ∃ u, step { s with randIn := r :: s.randIn } = .next u ∧ t = { u with randIn := s.randIn } := by
  change stepWith r s = .next t at h
  unfold stepWith at h
  split at h
  next u hu => cases h; exact ⟨u, hu, rfl⟩
  all_goals cases h

/-- A key event changes the keypad, and on a press edge ends a wait (60_exceptions.md R172, R173). -/
theorem State.keyEvent_quirks (s : State) (k : Nibble) (p : Bool) : (s.keyEvent k p).quirks = s.quirks := by
  obtain ⟨x, -, -, -, he⟩ | ⟨-, he⟩ := s.keyEvent_cases k p <;> rw [he] <;> rfl

theorem tick_quirks (s : State) : (tick s).quirks = s.quirks := by
  unfold tick
  split <;> rfl

theorem setKey_quirks (s : State) (k : Nibble) (p : Bool) : (setKey k p s).quirks = s.quirks := by
  unfold setKey
  split
  · rfl
  · exact s.keyEvent_quirks k p
  · exact s.keyEvent_quirks k p

/-- No event but RESET changes the profile (00_scope.md R6). -/
theorem applyEvent_quirks {e : Event} {s t : State} (hne : ∀ rom q font, e ≠ .reset rom q font)
    (h : applyEvent e s = .next t) : t.quirks = s.quirks := by
  cases e with
  | reset rom q font => exact absurd rfl (hne rom q font)
  | step r =>
    obtain ⟨u, hstep, rfl⟩ := applyEvent_step_next h
    exact (step_quirks hstep :)
  | tick => cases h; exact tick_quirks s
  | setKey k p => cases h; exact setKey_quirks s k p

/-- Settles O50: RESET from the reset values of the random source is `State.reset`, it latches its profile, and every other
event keeps the one latched. -/
theorem resetLatchesTheQuirkProfile : Obligations.ResetLatchesTheQuirkProfile := by
  refine ⟨fun s hrand hdraws => ?_, fun rom q font s t h => ?_, fun e s t hne h => applyEvent_quirks hne h⟩
  · rw [applyEvent_reset _ _ _ (by simp), State.afterReset_default, hrand, hdraws]
    rfl
  · obtain ⟨-, rfl⟩ := applyEvent_reset_next h
    rfl

end Sys2Proof.Machine

/-! SUPPORT. The pieces of state (10_state.md): which instructions write which piece, the invariant that every STEP keeps, and the
values after RESET. -/

namespace Sys2Proof.Machine

/-! ### What an instruction can do -/

/-- The next states of one instruction, each naming the pieces of state that it writes (10_state.md R20, "written by"): the
entry of a fatal condition, or the effect of one of the families of instructions. -/
inductive Effect (s : State) : Instr → State → Prop
  | halts (i : Instr) (k : FatalKind) : Effect s i (s.raiseFatal k (some (encode i)))
  | skips (i : Instr) (c : Bool) (hf : ¬ WritesFlag i) : Effect s i (s.advance.skipIf c)
  | jumps (nnn : Addr12) : Effect s (.jp nnn) (s.setPc (addrOperand nnn))
  | jumpsV0 (nnn : Addr12) : Effect s (.jpV0 nnn) (s.setPc (addrOperand nnn + zext16 (s.reg 0#4)))
  | returns (h : s.sp.val ≠ 0) :
      Effect s .ret { s with pc := s.stack[s.sp.val - 1]'(by omega), sp := ⟨s.sp.val - 1, by omega⟩ }
  | calls (nnn : Addr12) (h : s.sp.val < 16) :
      Effect s (.call nnn) { s with
        pc := addrOperand nnn, stack := s.stack.set s.sp.val (s.pc + 2#16) h, sp := ⟨s.sp.val + 1, by omega⟩ }
  | writesReg (i : Instr) (x : RegIdx) (b : Byte) (hx : IsDestination i x) (hf : ¬ WritesFlag i) :
      Effect s i (s.advance.setReg x b)
  | writesRegAndFlag (i : Instr) (x : RegIdx) (b : Byte) (f : Bool) (hx : IsDestination i x) (hf : WritesFlag i) :
      Effect s i (s.advance.writeResultAndFlag x b f)
  | randomizes (x : RegIdx) (kk b : Byte) : Effect s (.rnd x kk) (s.advance.dropRandom.setReg x b)
  | clears : Effect s .cls s.advance.clearScreen
  | draws (x y : RegIdx) (n : Nibble) (rows : List Byte) : Effect s (.drw x y n) (s.advance.drawSprite (s.reg x) (s.reg y) rows)
  | indexes (i : Instr) (a : Word) (hi : (∃ nnn, i = .ldI nnn) ∨ (∃ x, i = .addI x) ∨ ∃ x, i = .ldF x) :
      Effect s i (s.advance.setIndex a)
  | setsDelay (x : RegIdx) : Effect s (.ldDTVx x) (s.advance.setDelay (s.reg x))
  | setsSound (x : RegIdx) : Effect s (.ldSTVx x) (s.advance.setSound (s.reg x))
  | waits (x : RegIdx) : Effect s (.ldVxK x) (s.advance.beginWait x)
  | storesDigits (x : RegIdx) (h : s.i.toNat + 2 ≤ 4095) :
      Effect s (.ldB x) { s with pc := s.pc + 2#16, mem := s.mem.putFrom s.indexBase (bcdDigits (s.reg x)) }
  | storesRegs (x : RegIdx) (h : s.i.toNat + x.toNat ≤ 4095) :
      Effect s (.storeRegs x)
        (State.advanceIndex { s with pc := s.pc + 2#16, mem := s.mem.putFrom s.indexBase (s.regsUpTo x) } x)
  | loadsRegs (x : RegIdx) (bytes : List Byte) (h : bytes.length = x.toNat + 1) :
      Effect s (.loadRegs x) ((s.advance.loadFromZero bytes).advanceIndex x)

/-- Every next state of an instruction is one of its effects. -/
theorem exec_effect {i : Instr} {s t : State} (h : exec i s = .next t) : Effect s i t := by
  cases i with
  | cls => cases h; exact .clears
  | jp nnn => cases h; exact .jumps nnn
  | jpV0 nnn => cases h; exact .jumpsV0 nnn
  | seImm | sneImm | seReg | sneReg => cases h; exact .skips _ _ id
  | ldImm | addImm | ldReg | orReg | andReg | xorReg | ldVxDT => cases h; exact .writesReg _ _ _ rfl id
  | addReg | subReg | shr | subn | shl => cases h; exact .writesRegAndFlag _ _ _ _ rfl trivial
  | rnd x kk => cases h; exact .randomizes x kk _
  | ldI nnn => cases h; exact .indexes _ _ (.inl ⟨nnn, rfl⟩)
  | addI x => cases h; exact .indexes _ _ (.inr (.inl ⟨x, rfl⟩))
  | ldF x => cases h; exact .indexes _ _ (.inr (.inr ⟨x, rfl⟩))
  | ldDTVx x => cases h; exact .setsDelay x
  | ldSTVx x => cases h; exact .setsSound x
  | ldVxK x => cases h; exact .waits x
  | ret =>
    by_cases hsp : s.sp.val = 0
    · rw [exec_ret_empty hsp] at h; cases h; exact .halts _ _
    · rw [exec_ret hsp] at h; cases h; exact .returns hsp
  | call nnn =>
    by_cases hsp : s.sp.val < 16
    · rw [exec_call nnn hsp] at h; cases h; exact .calls nnn hsp
    · rw [exec_call_full nnn hsp] at h; cases h; exact .halts _ _
  | drw x y n =>
    by_cases hb : n.toNat = 0 ∨ s.i.toNat + n.toNat - 1 ≤ 4095
    · rw [exec_drw x y n hb] at h; cases h; exact .draws x y n _
    · rw [exec_drw_out x y n hb] at h; cases h; exact .halts _ _
  | skp x =>
    obtain hk | hk := le_or_gt (s.reg x).toNat 15
    · rw [exec_skp x hk] at h; cases h; exact .skips _ _ id
    · rw [exec_skp_out x hk] at h; cases h; exact .halts _ _
  | sknp x =>
    obtain hk | hk := le_or_gt (s.reg x).toNat 15
    · rw [exec_sknp x hk] at h; cases h; exact .skips _ _ id
    · rw [exec_sknp_out x hk] at h; cases h; exact .halts _ _
  | ldB x =>
    obtain hb | hb := le_or_gt (s.i.toNat + 2) 4095
    · rw [exec_ldB x hb] at h; cases h; exact .storesDigits x hb
    · rw [exec_ldB_out x hb] at h; cases h; exact .halts _ _
  | storeRegs x =>
    obtain hb | hb := le_or_gt (s.i.toNat + x.toNat) 4095
    · rw [exec_storeRegs x hb] at h; cases h; exact .storesRegs x hb
    · rw [exec_storeRegs_out x hb] at h; cases h; exact .halts _ _
  | loadRegs x =>
    obtain hb | hb := le_or_gt (s.i.toNat + x.toNat) 4095
    · rw [exec_loadRegs x hb] at h; cases h; exact .loadsRegs x _ (Memory.length_bytesFrom ..)
    · rw [exec_loadRegs_out x hb] at h; cases h; exact .halts _ _


/-! ### The pieces of state, each with its writers (10_state.md R20) -/

section Writers

variable {i : Instr} {s t : State}

theorem exec_changes_stack (h : exec i s = .next t) (hne : t.stack ≠ s.stack) : ∃ nnn, i = .call nnn := by
  cases exec_effect h with
  | calls nnn => exact ⟨nnn, rfl⟩
  | _ => exact absurd (by simp) hne

theorem exec_changes_sp (h : exec i s = .next t) (hne : t.sp ≠ s.sp) : i = .ret ∨ ∃ nnn, i = .call nnn := by
  cases exec_effect h with
  | returns => exact .inl rfl
  | calls nnn => exact .inr ⟨nnn, rfl⟩
  | _ => exact absurd (by simp) hne

/-- `I` moves after a block transfer under ADVANCE only (43_index_memory.md R134, R135). -/
theorem State.advanceIndex_changes_i {s : State} {x : RegIdx} (hne : (s.advanceIndex x).i ≠ s.i) :
    s.quirks.indexAdvance = .advance := by
  rw [State.advanceIndex_i] at hne
  cases hq : s.quirks.indexAdvance with
  | unchanged => simp [hq] at hne
  | advance => rfl

theorem exec_changes_i (h : exec i s = .next t) (hne : t.i ≠ s.i) :
    (∃ nnn, i = .ldI nnn) ∨ (∃ x, i = .addI x) ∨ (∃ x, i = .ldF x) ∨
      (s.quirks.indexAdvance = .advance ∧ ((∃ x, i = .storeRegs x) ∨ ∃ x, i = .loadRegs x)) := by
  cases exec_effect h with
  | indexes _ _ hi =>
    obtain hi | hi | hi := hi
    · exact .inl hi
    · exact .inr (.inl hi)
    · exact .inr (.inr (.inl hi))
  | storesRegs x => exact .inr (.inr (.inr ⟨(State.advanceIndex_changes_i hne :), .inl ⟨x, rfl⟩⟩))
  | loadsRegs x => exact .inr (.inr (.inr ⟨(State.advanceIndex_changes_i hne :), .inr ⟨x, rfl⟩⟩))
  | _ => exact absurd (by simp) hne

theorem exec_changes_dt (h : exec i s = .next t) (hne : t.dt ≠ s.dt) : ∃ x, i = .ldDTVx x := by
  cases exec_effect h with
  | setsDelay x => exact ⟨x, rfl⟩
  | _ => exact absurd (by simp) hne

theorem exec_changes_st (h : exec i s = .next t) (hne : t.st ≠ s.st) : ∃ x, i = .ldSTVx x := by
  cases exec_effect h with
  | setsSound x => exact ⟨x, rfl⟩
  | _ => exact absurd (by simp) hne

theorem exec_changes_mem (h : exec i s = .next t) (hne : t.mem ≠ s.mem) : (∃ x, i = .ldB x) ∨ ∃ x, i = .storeRegs x := by
  cases exec_effect h with
  | storesDigits x => exact .inl ⟨x, rfl⟩
  | storesRegs x => exact .inr ⟨x, rfl⟩
  | _ => exact absurd (by simp) hne

theorem exec_changes_fb (h : exec i s = .next t) (hne : t.fb ≠ s.fb) : i = .cls ∨ ∃ x y n, i = .drw x y n := by
  cases exec_effect h with
  | clears => exact .inl rfl
  | draws x y n => exact .inr ⟨x, y, n, rfl⟩
  | _ => exact absurd (by simp) hne

theorem exec_changes_wait (h : exec i s = .next t) (hne : t.wait ≠ s.wait) : ∃ x, i = .ldVxK x := by
  cases exec_effect h with
  | waits x => exact ⟨x, rfl⟩
  | _ => exact absurd (by simp) hne

theorem exec_changes_parameters (h : exec i s = .next t) (hne : ¬ SameParameters s t) : ∃ x kk, i = .rnd x kk := by
  cases exec_effect h with
  | randomizes x kk => exact ⟨x, kk, rfl⟩
  | _ => exact absurd (by simp [SameParameters]) hne

theorem exec_keypad (h : exec i s = .next t) : t.keypad = s.keypad := by
  cases exec_effect h <;> simp

/-- A general register changes as a destination, or as VF under a flag writer (10_state.md R22). -/
theorem exec_changes_reg (h : exec i s = .next t) {r : RegIdx} (hne : t.reg r ≠ s.reg r) :
    IsDestination i r ∨ (r = vf ∧ WritesFlag i) := by
  by_contra hw
  obtain ⟨hd, hf⟩ := not_or.1 hw
  refine hne ?_
  cases exec_effect h with
  | writesReg _ x b hx => exact State.reg_setReg_ne _ (fun (hr : r = x) => hd (hr ▸ hx)) b
  | writesRegAndFlag _ x b f hx hflag =>
    have hrx : r ≠ x := fun hr => hd (hr ▸ hx)
    have hrf : r ≠ vf := fun hr => hf ⟨hr, hflag⟩
    simp [State.reg_writeResultAndFlag, hrx, hrf]
  | randomizes x kk b => rw [State.reg_setReg_ne _ hd, State.reg_dropRandom, State.reg_advance]
  | draws => exact State.reg_drawSprite_ne _ _ _ _ fun hr => hf ⟨hr, trivial⟩
  | loadsRegs x bytes hlen =>
    have hout : ¬ r.toNat < bytes.length := by
      have hrx : ¬ r.toNat ≤ x.toNat := hd
      omega
    rw [State.reg_advanceIndex, State.reg_loadFromZero, dif_neg hout, State.reg_advance]
  | _ => exact State.reg_congr (by simp) r

end Writers

/-- Settles O52: the writers of each piece of state, piece by piece. -/
theorem stateChangesOnlyByItsWriters : Obligations.StateChangesOnlyByItsWriters := fun _ _ _ h =>
  ⟨exec_changes_stack h, exec_changes_sp h, exec_changes_i h, exec_changes_dt h, exec_changes_st h,
    fun hne => exec_changes_mem h fun heq => hne fun _ => by rw [heq],
    exec_changes_fb h, exec_changes_wait h, exec_changes_parameters h, exec_keypad h, exec_quirks h,
    fun _ => exec_changes_reg h⟩

/-! ### VF (10_state.md R22) -/

theorem flagByte_eq_zero_or_one (f : Bool) : flagByte f = 0#8 ∨ flagByte f = 1#8 := by
  cases f
  · exact .inl rfl
  · exact .inr rfl

/-- A flag writer that completes and whose destination is not VF leaves a flag there. -/
theorem exec_leaves_flag {i : Instr} {s t : State} (h : exec i s = .next t) (ht : t.Safe) (hf : WritesFlag i)
    (hd : ¬ IsDestination i vf) : ∃ f, t.reg vf = flagByte f := by
  cases exec_effect h with
  | halts => exact absurd rfl (ht _)
  | skips _ _ hn | writesReg _ _ _ _ hn => exact absurd hf hn
  | indexes _ _ hi => obtain ⟨_, rfl⟩ | ⟨_, rfl⟩ | ⟨_, rfl⟩ := hi <;> exact hf.elim
  | writesRegAndFlag _ x b f hx =>
    have hvx : vf ≠ x := fun hr => hd (hr ▸ hx)
    exact ⟨f, by simp [State.reg_writeResultAndFlag, hvx]⟩
  | draws => exact ⟨_, State.reg_setReg_same _ _ _⟩
  | _ => exact hf.elim

/-- Settles O30: VF is a register that only its writers change, and a flag is 0 or 1. -/
theorem vfChangesOnlyByFlagWriters : Obligations.VfChangesOnlyByFlagWriters := by
  refine ⟨fun i s t h hf hd => ?_, fun i s t h ht hf hd => ?_⟩
  · by_contra hne
    obtain hdest | ⟨-, hflag⟩ := exec_changes_reg h hne
    · exact hd hdest
    · exact hf hflag
  · obtain ⟨f, hvf⟩ := exec_leaves_flag h ht hf hd
    rw [hvf]
    exact flagByte_eq_zero_or_one f

/-! ### The invariant (10_state.md R30, R35) -/

/-- Settles O55: nothing is listed in memory, no address is live and `pc` is 512 (10_state.md R34). -/
theorem invariantHoldsAtReset : Obligations.InvariantHoldsAtReset where
  mem_canonical := Memory.wf_reset
  blocked_iff_wait := by decide
  live_returns _ _ hlive := absurd hlive (Nat.not_lt_zero _)
  pc_bound := by decide
  halted_pc _ hhalted := nomatch hhalted

/-- The two stores write inside the 4096 bytes, so memory keeps its canonical form (20_memory.md R55). -/
theorem exec_mem_wf {i : Instr} {s t : State} (h : exec i s = .next t) (hm : s.mem.wf = true) : t.mem.wf = true := by
  cases exec_effect h with
  | storesDigits x hb =>
    refine Memory.wf_putFrom _ hm ?_
    show s.i.toNat + 3 ≤ 4096
    omega
  | storesRegs x hb =>
    rw [State.advanceIndex_mem]
    refine Memory.wf_putFrom _ hm ?_
    rw [State.length_regsUpTo, State.indexBase]
    omega
  | _ => simpa using hm

/-- `Fx0A` alone blocks, and it is the one that makes a wait (45_keypad_timers.md R153). -/
theorem exec_blocked_iff_wait {i : Instr} {s t : State} (h : exec i s = .next t) (hrun : s.status = .running)
    (hwait : s.wait = none) : t.status = .blocked ↔ t.wait ≠ none := by
  cases exec_effect h with
  | halts => simp [State.raiseFatal, hwait]
  | waits => simp
  | _ => simp [hrun, hwait]

/-- Every live return address is at most 4096. -/
def State.LiveReturnsBounded (s : State) : Prop :=
  ∀ j, (h : j < 16) → j < s.sp.val → (s.stack[j]'h).toNat ≤ 4096

/-- A call pushes at most 4096, and a return leaves the slots below as they are. -/
theorem exec_live_returns {i : Instr} {s t : State} (h : exec i s = .next t) (hpc : s.pc.toNat ≤ 4094)
    (hlive : s.LiveReturnsBounded) : t.LiveReturnsBounded := by
  cases exec_effect h with
  | returns hsp => exact fun j hj hlt => hlive j hj (lt_of_lt_of_le hlt (Nat.sub_le _ _))
  | calls nnn hsp =>
    intro j hj hlt
    simp only [Vector.getElem_set]
    split
    · bv_omega
    · have : j < s.sp.val + 1 := hlt
      exact hlive j hj (by omega)
  | _ => simpa [State.LiveReturnsBounded] using hlive

theorem toNat_addrOperand_le (nnn : Addr12) : (addrOperand nnn).toNat ≤ 4095 := by
  have := nnn.isLt
  simp only [addrOperand, BitVec.toNat_setWidth]
  omega

theorem toNat_zext16_le (b : Byte) : (zext16 b).toNat ≤ 255 := by
  have := b.isLt
  simp only [zext16, BitVec.toNat_setWidth]
  omega

/-- `pc` of a fetched instruction goes at most 4 further, or to a target of at most 4095 + 255 (41_control_flow.md R107). -/
theorem exec_pc_bound {i : Instr} {s t : State} (h : exec i s = .next t) (hpc : s.pc.toNat ≤ 4094)
    (hlive : s.LiveReturnsBounded) : t.pc.toNat ≤ 0x10FE := by
  have hadvance : (s.pc + 2#16).toNat = s.pc.toNat + 2 := by bv_omega
  cases exec_effect h with
  | halts => exact hpc.trans (by decide)
  | skips _ c =>
    rw [State.skipIf_pc, State.advance_pc]
    split <;> bv_omega
  | jumps nnn => exact (toNat_addrOperand_le nnn).trans (by decide)
  | jumpsV0 nnn =>
    have h1 := toNat_addrOperand_le nnn
    have h2 := toNat_zext16_le (s.reg 0#4)
    rw [State.setPc_pc, BitVec.toNat_add]
    omega
  | calls nnn => exact (toNat_addrOperand_le nnn).trans (by decide)
  | returns hsp => exact (hlive _ (by omega) (by omega)).trans (by decide)
  | _ => simpa [hadvance] using by omega

/-- The record of a fatal condition holds the `pc` of the state before the STEP, which stays (60_exceptions.md R167). -/
theorem exec_halted_pc {i : Instr} {s t : State} (h : exec i s = .next t) (hrun : s.status = .running) (e : ErrorRecord)
    (he : t.status = .halted e) : e.pc = t.pc := by
  cases exec_effect h with
  | halts => cases he; rfl
  | _ => simp [hrun] at he

/-- No wait stands in RUNNING. -/
theorem State.Inv.wait_none {s : State} (hs : s.Inv) (hrun : s.status = .running) : s.wait = none := by
  by_contra hw
  have := hs.blocked_iff_wait.2 hw
  simp [hrun] at this

theorem State.Inv.raiseFatal {s : State} (hs : s.Inv) (hrun : s.status = .running) (k : FatalKind) (o : Option Word) :
    (s.raiseFatal k o).Inv where
  mem_canonical := hs.mem_canonical
  blocked_iff_wait := by simp [State.raiseFatal, hs.wait_none hrun]
  live_returns := hs.live_returns
  pc_bound := hs.pc_bound
  halted_pc _ he := by cases he; rfl

/-- A fetched instruction keeps the invariant. -/
theorem State.Inv.of_exec {i : Instr} {s t : State} (hs : s.Inv) (hrun : s.status = .running) (hpc : s.pc.toNat ≤ 4094)
    (h : exec i s = .next t) : t.Inv where
  mem_canonical := exec_mem_wf h hs.mem_canonical
  blocked_iff_wait := exec_blocked_iff_wait h hrun (hs.wait_none hrun)
  live_returns := exec_live_returns h hpc hs.live_returns
  pc_bound := exec_pc_bound h hpc hs.live_returns
  halted_pc := exec_halted_pc h hrun

/-- Settles O56: a STEP does nothing, halts at the fetch or the decoding, or runs an instruction fetched at 4094 or below. -/
theorem everyStepKeepsTheInvariant : Obligations.EveryStepKeepsTheInvariant := by
  intro s t hs h
  obtain ⟨-, rfl⟩ | ⟨hrun, -, rfl⟩ | ⟨w, hrun, -, -, -, rfl⟩ | ⟨w, i, hrun, hpc, -, -, hexec⟩ := step_cases h
  · exact hs
  · exact hs.raiseFatal hrun _ _
  · exact hs.raiseFatal hrun _ _
  · exact hs.of_exec hrun hpc hexec

/-! ### RESET (10_state.md R34) -/

theorem Memory.unlisted_of_ge {a : Nat} (h : 80 ≤ a) : Memory.unlisted a = 0#8 := dif_neg (by omega)

/-- Memory after RESET: the ROM image from 512, the font from 0, and the reset contents elsewhere. -/
theorem byteAt_afterReset {rom : List Byte} (q : Quirks) (font : Vector Byte 80) (s : State) (hrom : rom.length ≤ 3584)
    (a : Nat) : (s.afterReset rom q font).mem.byteAt a =
      if 512 ≤ a ∧ a < 512 + rom.length then rom.getD (a - 512) 0#8
      else if a < 80 then font.toList.getD a 0#8 else 0#8 := by
  have hfont : (Memory.putFrom [] 0 font.toList).wf = true := Memory.wf_putFrom _ rfl (by simp)
  have hread : (Memory.putFrom [] 0 font.toList).byteAt a = if a < 80 then font.toList.getD a 0#8 else 0#8 := by
    rw [Memory.byteAt_putFrom_eq _ _ rfl (by simp)]
    by_cases ha : a < 80
    · simp [ha]
    · simp [ha, Memory.byteAt, Memory.unlisted_of_ge (Nat.le_of_not_lt ha)]
  show ((Memory.putFrom [] 0 font.toList).putFrom 512 rom).byteAt a = _
  rw [Memory.byteAt_putFrom_eq rom a hfont (by omega), hread]

/-- Settles O49: the table of reset values, memory by `byteAt_afterReset` and every other piece by the definition of RESET. -/
theorem resetValuesAreTheTable : Obligations.ResetValuesAreTheTable := by
  intro rom q font s hrom
  have hmem := byteAt_afterReset q font s hrom
  refine ⟨_, applyEvent_reset q font s hrom, fun a ha => ?_, fun a h80 h512 => ?_, fun j hj => ?_, fun a hrom _ => ?_,
    fun r => Vector.getElem_replicate _, fun j hj => Vector.getElem_replicate _, rfl, rfl, rfl, rfl, rfl, fun r c => ?_,
    fun k => Vector.getElem_replicate _, rfl, rfl, rfl⟩
  · rw [hmem, if_neg (by omega), if_pos ha]; simp [ha]
  · rw [hmem, if_neg (by omega), if_neg (by omega)]
  · rw [hmem, if_pos (by omega)]; simp [hj]
  · rw [hmem, if_neg (by omega), if_neg (by omega)]
  · simp [State.pixel, State.afterReset, State.reset]

end Sys2Proof.Machine

/-! SUPPORT. Memory (20_memory.md): the fetched word is big-endian, MemWrite and MemRead answer inside the bound and give the bytes
back, the canonical form determines the list, and the next fetch sees a store. -/

namespace Sys2Proof.Machine

/-! ### The fetch (20_memory.md R52, R56) -/

/-- The byte at the lower address holds the family nibble (20_memory.md R52). -/
theorem toNat_opField_wordOfBytes (hi lo : Byte) : (opField (wordOfBytes hi lo)).toNat = hi.toNat / 16 := by
  have := lo.isLt
  rw [toNat_opField, toNat_wordOfBytes]
  omega

/-- The byte at the lower address holds the field `x` (20_memory.md R52). -/
theorem toNat_xField_wordOfBytes (hi lo : Byte) : (xField (wordOfBytes hi lo)).toNat = hi.toNat % 16 := by
  have := lo.isLt
  rw [toNat_xField, toNat_wordOfBytes]
  omega

/-- A byte of the ROM image after RESET is in memory at its place from 512 (10_state.md R34). -/
theorem byteAt_afterReset_rom {rom : List Byte} (q : Quirks) (font : Vector Byte 80) (s : State) (hrom : rom.length ≤ 3584)
    {j : Nat} (hj : j < rom.length) : (s.afterReset rom q font).mem.byteAt (512 + j) = rom[j] := by
  rw [byteAt_afterReset q font s hrom, if_pos (by omega)]
  simp [hj]

/-- Settles O6: the word of two bytes as a number and by its fields, at `pc` and over the ROM image that RESET leaves in memory. -/
theorem fetchIsBigEndian : Obligations.FetchIsBigEndian := by
  refine ⟨fun s hpc => ⟨_, State.fetch_some hpc, toNat_wordOfBytes _ _, toNat_opField_wordOfBytes _ _,
    toNat_xField_wordOfBytes _ _⟩, fun rom q font s k hrom hk => ?_⟩
  have hpc : (BitVec.ofNat 16 (512 + 2 * k)).toNat = 512 + 2 * k := Nat.mod_eq_of_lt (by omega)
  refine ⟨_, _, applyEvent_reset q font s hrom, State.fetch_some (by rw [hpc]; omega), ?_⟩
  rw [toNat_wordOfBytes, hpc, Nat.add_assoc, byteAt_afterReset_rom q font s hrom (Nat.lt_of_succ_lt hk),
    byteAt_afterReset_rom q font s hrom hk]

/-- STEP where nothing can be fetched. -/
theorem step_of_fetch_none {s : State} (hrun : s.status = .running) (hf : s.fetch = none) :
    step s = .next (s.raiseFatal .memoryOutOfBounds none) := by
  unfold step
  rw [hrun, hf]

/-- Settles O9: there is a word to fetch exactly up to 4094. -/
theorem fetchPastMemoryHalts : Obligations.FetchPastMemoryHalts :=
  ⟨fun _ hrun hpc => step_of_fetch_none hrun (State.fetch_none hpc), fun _ hpc => ⟨_, State.fetch_some hpc⟩⟩

/-! ### MemRead and MemWrite (20_memory.md R55, R58, R59) -/

theorem State.isSome_memRead_iff (s : State) (a n : Nat) : (s.memRead a n).isSome = true ↔ n = 0 ∨ a + n - 1 ≤ 4095 := by
  by_cases hb : n = 0 ∨ a + n - 1 ≤ 4095
  · rw [State.memRead_some s hb]
    exact iff_of_true rfl hb
  · rw [State.memRead_none s hb]
    exact iff_of_false Bool.false_ne_true hb

theorem State.isSome_memWrite_iff (s : State) (a : Nat) (bs : List Byte) :
    (s.memWrite a bs).isSome = true ↔ bs.length = 0 ∨ a + bs.length - 1 ≤ 4095 := by
  by_cases hb : bs.length = 0 ∨ a + bs.length - 1 ≤ 4095
  · rw [State.memWrite_some s hb]
    exact iff_of_true rfl hb
  · rw [State.memWrite_none s hb]
    exact iff_of_false Bool.false_ne_true hb

/-- MemWrite answers one state only, inside the bound. -/
theorem State.memWrite_eq_some {s t : State} {a : Nat} {bs : List Byte} (h : s.memWrite a bs = some t) :
    (bs.length = 0 ∨ a + bs.length - 1 ≤ 4095) ∧ t = { s with mem := s.mem.putFrom a bs } := by
  have hb := (s.isSome_memWrite_iff a bs).1 (Option.isSome_of_mem h)
  rw [State.memWrite_some s hb] at h
  cases h
  exact ⟨hb, rfl⟩

/-- Reading the place of a stored block gives the block (20_memory.md R59). -/
theorem Memory.bytesFrom_putFrom {m : Memory} (bs : List Byte) {a : Nat} (hm : m.wf = true) (ha : a + bs.length ≤ 4096) :
    (m.putFrom a bs).bytesFrom a bs.length = bs := by
  refine List.ext_getElem (by simp) fun j _ hj => ?_
  rw [Memory.getElem_bytesFrom, Memory.byteAt_putFrom bs hm ha hj]

/-- MemWrite and then MemRead at the same place (20_memory.md R59). -/
theorem State.memRead_of_memWrite {s t : State} {a : Nat} {bs : List Byte} (hm : s.mem.wf = true)
    (h : s.memWrite a bs = some t) : t.memRead a bs.length = some bs := by
  obtain ⟨hb, rfl⟩ := State.memWrite_eq_some h
  rw [State.memRead_some _ hb]
  cases bs with
  | nil => rfl
  | cons b bs => rw [Memory.bytesFrom_putFrom _ hm (by simp only [List.length_cons] at hb ⊢; omega)]

/-- MemWrite leaves every byte outside its block. -/
theorem State.sameMemoryOutside_of_memWrite {s t : State} {a : Nat} {bs : List Byte} (hm : s.mem.wf = true)
    (h : s.memWrite a bs = some t) : SameMemoryOutside a bs.length s t := by
  obtain ⟨hb, rfl⟩ := State.memWrite_eq_some h
  cases bs with
  | nil => exact fun _ _ => rfl
  | cons b bs => exact fun c hc => Memory.byteAt_putFrom_outside _ hm (by simp only [List.length_cons] at hb ⊢; omega) hc

/-- Settles O35: the bound of both primitives, the read of the block and the frame. -/
theorem memoryReadsBackWhatWasWritten : Obligations.MemoryReadsBackWhatWasWritten := by
  intro s a bytes
  refine ⟨?_, s.isSome_memRead_iff a, fun t hm h => ⟨State.memRead_of_memWrite hm h, State.sameMemoryOutside_of_memWrite hm h⟩⟩
  rw [State.isSome_memWrite_iff, List.length_eq_zero_iff]

/-! ### The canonical form (20_memory.md R50, log entry 12) -/

theorem Memory.byteAt_cons_same (c : Host.Cell) (m : Memory) : Memory.byteAt (c :: m) c.1 = c.2 := if_pos rfl

theorem Memory.byteAt_cons_ne {c : Host.Cell} (m : Memory) {a : Nat} (h : a ≠ c.1) :
    Memory.byteAt (c :: m) a = m.byteAt a := if_neg h

/-- The first cell of a canonical memory differs from what a memory reads there that lists nothing up to it. -/
theorem Memory.byteAt_head_ne {lo : Nat} {c : Host.Cell} {m m' : Memory} (hc : Memory.wfFrom lo (c :: m) = true)
    (hm' : Memory.wfFrom (c.1 + 1) m' = true) : Memory.byteAt (c :: m) c.1 ≠ m'.byteAt c.1 := by
  obtain ⟨-, -, hlisted, -⟩ := (Memory.wfFrom_cons lo c m).1 hc
  rw [Memory.byteAt_cons_same, Memory.byteAt_below hm' (Nat.lt_succ_self _)]
  exact hlisted

/-- Of two canonical memories that read the same, neither starts above the other. -/
theorem Memory.head_le_of_byteAt_eq {lo : Nat} {c d : Host.Cell} {m m' : Memory} (hc : Memory.wfFrom lo (c :: m) = true)
    (hd : Memory.wfFrom lo (d :: m') = true)
    (heq : ∀ a, a < 4096 → Memory.byteAt (c :: m) a = Memory.byteAt (d :: m') a) : d.1 ≤ c.1 := by
  obtain ⟨-, hcm, -, -⟩ := (Memory.wfFrom_cons lo c m).1 hc
  have hrest := ((Memory.wfFrom_cons lo d m').1 hd).2
  by_contra hlt
  refine Memory.byteAt_head_ne hc ?_ (heq _ hcm)
  exact (Memory.wfFrom_cons _ d m').2 ⟨by omega, hrest⟩

/-- Below the rest of a canonical memory nothing is listed, so two memories that agree with one more cell at the same address agree
without it. -/
theorem Memory.byteAt_tail_eq {c d : Host.Cell} {m m' : Memory} (hcd : c.1 = d.1) (hm : Memory.wfFrom (c.1 + 1) m = true)
    (hm' : Memory.wfFrom (d.1 + 1) m' = true) {a : Nat} (h : Memory.byteAt (c :: m) a = Memory.byteAt (d :: m') a) :
    m.byteAt a = m'.byteAt a := by
  by_cases ha : a = c.1
  · rw [Memory.byteAt_below hm (by omega), Memory.byteAt_below hm' (by omega)]
  · rwa [Memory.byteAt_cons_ne m ha, Memory.byteAt_cons_ne m' (hcd ▸ ha)] at h

/-- Canonical memories from one address up that read the same are the same list. -/
theorem Memory.eq_of_byteAt_eq {lo : Nat} {m m' : Memory} (hm : Memory.wfFrom lo m = true) (hm' : Memory.wfFrom lo m' = true)
    (heq : ∀ a, a < 4096 → m.byteAt a = m'.byteAt a) : m = m' := by
  induction m generalizing lo m' with
  | nil =>
    cases m' with
    | nil => rfl
    | cons d m' =>
      obtain ⟨-, hd, -, -⟩ := (Memory.wfFrom_cons lo d m').1 hm'
      exact absurd (heq _ hd).symm (Memory.byteAt_head_ne hm' rfl)
  | cons c m ih =>
    obtain ⟨-, hc, -, htail⟩ := (Memory.wfFrom_cons lo c m).1 hm
    cases m' with
    | nil => exact absurd (heq _ hc) (Memory.byteAt_head_ne hm rfl)
    | cons d m' =>
      obtain ⟨-, -, -, htail'⟩ := (Memory.wfFrom_cons lo d m').1 hm'
      have haddr : c.1 = d.1 := Nat.le_antisymm (Memory.head_le_of_byteAt_eq hm' hm fun a ha => (heq a ha).symm)
        (Memory.head_le_of_byteAt_eq hm hm' heq)
      have hbyte : c.2 = d.2 := by
        have := heq _ hc
        rwa [Memory.byteAt_cons_same, haddr, Memory.byteAt_cons_same] at this
      have hrest : m = m' := ih htail (haddr ▸ htail') fun a ha => Memory.byteAt_tail_eq haddr htail htail' (heq a ha)
      rw [Prod.ext haddr hbyte, hrest]

/-- Settles O36: `Memory.eq_of_byteAt_eq` from address 0. -/
theorem canonicalMemoriesWithEqualBytesAreEqual : Obligations.CanonicalMemoriesWithEqualBytesAreEqual := fun _ _ hm hm' heq =>
  Memory.eq_of_byteAt_eq hm hm' heq

/-! ### A store is seen by the next fetch (20_memory.md R62) -/

/-- The bytes of memory after a store are the old ones with the block over them. -/
theorem Memory.byteAt_putFrom_eq_byteUnder {m : Memory} (bs : List Byte) {a : Nat} (c : Nat) (hm : m.wf = true)
    (ha : a + bs.length ≤ 4096) : (m.putFrom a bs).byteAt c = byteUnder m a bs c :=
  Memory.byteAt_putFrom_eq bs c hm ha

theorem wordOfBytes_eq_ofNat (hi lo : Byte) : wordOfBytes hi lo = BitVec.ofNat 16 (hi.toNat * 256 + lo.toNat) := by
  rw [← toNat_wordOfBytes, BitVec.ofNat_toNat, BitVec.setWidth_eq]

/-- The fetch in a state whose memory is another's with a block stored over it. -/
theorem State.fetch_of_putFrom {t : State} {m : Memory} {a : Nat} {bs : List Byte} (hm : m.wf = true)
    (ha : a + bs.length ≤ 4096) (hmem : t.mem = m.putFrom a bs) (hpc : t.pc.toNat ≤ 4094) :
    t.fetch = some (wordUnder m a bs t.pc.toNat) := by
  rw [State.fetch_some hpc, hmem, Memory.byteAt_putFrom_eq_byteUnder bs _ hm ha, Memory.byteAt_putFrom_eq_byteUnder bs _ hm ha,
    wordOfBytes_eq_ofNat]
  rfl

/-- The registers that a block store writes, one by one (43_index_memory.md R134). -/
theorem State.regsUpTo_eq_map (s : State) (x : RegIdx) :
    s.regsUpTo x = (List.range (x.toNat + 1)).map fun j => s.reg (BitVec.ofNat 4 j) := by
  refine List.ext_getElem (by simp [State.length_regsUpTo]) fun j hj _ => ?_
  obtain ⟨r, rfl⟩ : ∃ r : RegIdx, r.toNat = j := by
    have := x.isLt
    rw [State.length_regsUpTo] at hj
    exact ⟨BitVec.ofNat 4 j, Nat.mod_eq_of_lt (by omega)⟩
  rw [State.getElem_regsUpTo]
  simp

/-- Settles O37: each of the two stores leaves memory with its block over it, and `State.fetch_of_putFrom` reads that. -/
theorem storesAreSeenByTheNextFetch : Obligations.StoresAreSeenByTheNextFetch := by
  refine ⟨fun x s hm hb => ⟨_, exec_ldB x hb, fun p hp => ?_⟩, fun x s hm hb => ⟨_, exec_storeRegs x hb, fun p hp => ?_⟩⟩
  · have hend : s.indexBase + (bcdDigits (s.reg x)).length ≤ 4096 := Nat.succ_le_succ hb
    exact State.fetch_of_putFrom hm hend rfl hp
  · have hend : s.indexBase + (s.regsUpTo x).length ≤ 4096 := by
      rw [State.length_regsUpTo]
      exact Nat.succ_le_succ hb
    rw [← State.regsUpTo_eq_map]
    exact State.fetch_of_putFrom hm hend (State.advanceIndex_mem _ x) hp

end Sys2Proof.Machine

/-! SUPPORT. The decoder and the encoder (30_encoding.md): each undoes the other up to the low nibble of `5xyn` and `9xyn` (R77,
R83), the rows of the opcode map exclude each other and select the words that the decoder knows (R75), and the words it does not
know, family by family (R78). -/

namespace Sys2Proof.Laws

variable {w : Word} {i : Instr}

/-! ### Masks and the words of a family (30_encoding.md R71, R72) -/

theorem ofNibbles_and (a b c d a' b' c' d' : Nibble) :
    ofNibbles a b c d &&& ofNibbles a' b' c' d' = ofNibbles (a &&& a') (b &&& b') (c &&& c') (d &&& d') := by
  unfold ofNibbles
  erw [BitVec.and_append (x₁ := a ++ b ++ c), BitVec.and_append (x₁ := a ++ b), BitVec.and_append]

theorem and_fullNibble (n : Nibble) : n &&& 0xF#4 = n := BitVec.and_allOnes

theorem and_FFF0 (w : Word) : w &&& 0xFFF0#16 = ofNibbles (opField w) (xField w) (yField w) 0#4 := by
  have h := ofNibbles_and (opField w) (xField w) (yField w) (nField w) 0xF#4 0xF#4 0xF#4 0x0#4
  rw [ofNibbles_fields, show ofNibbles 0xF#4 0xF#4 0xF#4 0x0#4 = 0xFFF0#16 by decide] at h
  simpa [and_fullNibble] using h

theorem and_000F (w : Word) : w &&& 0x000F#16 = ofNibbles 0#4 0#4 0#4 (nField w) := by
  have h := ofNibbles_and (opField w) (xField w) (yField w) (nField w) 0x0#4 0x0#4 0x0#4 0xF#4
  rw [ofNibbles_fields, show ofNibbles 0x0#4 0x0#4 0x0#4 0xF#4 = 0x000F#16 by decide] at h
  simpa [and_fullNibble] using h

theorem and_F000_eq_iff (w : Word) (op : Nibble) : w &&& 0xF000#16 = ofNibbles op 0#4 0#4 0#4 ↔ opField w = op := by
  rw [and_F000]
  exact ⟨fun h => by simpa using congrArg opField h, fun h => by rw [h]⟩

theorem and_000F_eq_zero_iff (w : Word) : w &&& 0x000F#16 = 0#16 ↔ nField w = 0#4 := by
  rw [and_000F]
  exact ⟨fun h => (nField_ofNibbles _ _ _ _).symm.trans (congrArg nField h), fun h => by rw [h]; decide⟩

/-- The canonical spelling, by fields (30_encoding.md R77). -/
theorem canonicalWord_iff (w : Word) :
    canonicalWord w = true ↔ (opField w = 0x5#4 ∨ opField w = 0x9#4 → nField w = 0#4) := by
  have h5 := and_F000_eq_iff w 0x5#4
  have h9 := and_F000_eq_iff w 0x9#4
  rw [← h5, ← h9, ← and_000F_eq_zero_iff]
  exact decide_eq_true_iff

/-- A word of the format NNN, written out from its family and its address. -/
theorem encodeNNN_of_family {op : Nibble} (ho : opField w = op) : encodeNNN op (nnnField w) = w :=
  ho ▸ encodeNNN_fields w

/-- A word of the format X or XKK, written out from its family, `x` and `kk`. -/
theorem encodeXKK_of_family {op : Nibble} {kk : Byte} (ho : opField w = op) (hk : kkField w = kk) :
    encodeXKK op (xField w) kk = w :=
  ho ▸ hk ▸ encodeXKK_fields w

/-- A word of the format XY or XYN, written out from its family, `x`, `y` and `n`. -/
theorem ofNibbles_of_family {op n : Nibble} (ho : opField w = op) (hn : nField w = n) :
    ofNibbles op (xField w) (yField w) n = w :=
  ho ▸ hn ▸ ofNibbles_fields w

/-! ### The round trips (30_encoding.md R83) -/

/-- Decoding the canonical word of an instruction, format by format. -/
theorem decodeWord_encode (i : Instr) : decodeWord (encode i) = some i := by
  cases i with
  | cls | ret => rfl
  | jp nnn | call nnn | ldI nnn | jpV0 nnn => simp [encode, decodeWord]
  | seImm x kk | sneImm x kk | ldImm x kk | addImm x kk | rnd x kk => simp [encode, decodeWord]
  | seReg x y | sneReg x y | drw x y n => simp [encode, decodeWord]
  | ldReg x y | orReg x y | andReg x y | xorReg x y | addReg x y | subReg x y | shr x y | subn x y | shl x y =>
    simp [encode, decodeWord, decodeAlu]
  | skp x | sknp x => simp [encode, decodeWord, decodeKey]
  | ldVxDT x | ldVxK x | ldDTVx x | ldSTVx x | addI x | ldF x | ldB x | storeRegs x | loadRegs x =>
    simp [encode, decodeWord, decodeMisc]

/-- Settles O2: `decodeWord_encode`. -/
theorem decodeInvertsEncode : Obligations.DecodeInvertsEncode := fun i _ => decodeWord_encode i

/-- Family 0x0 of the decoder: the two words are their own spelling (30_encoding.md R76). -/
theorem encode_of_decodeFamily0
    (h : (if w = 0x00E0#16 then some .cls else if w = 0x00EE#16 then some .ret else none) = some i) : encode i = w := by
  split at h
  case isTrue hw => cases h; exact hw.symm
  case isFalse =>
    split at h <;> cases h
    exact ‹w = 0x00EE#16›.symm

theorem encode_of_decodeAlu (ho : opField w = 0x8#4) (h : decodeAlu w = some i) : encode i = w := by
  unfold decodeAlu at h
  split at h <;> cases h <;> exact ofNibbles_of_family ho ‹_›

theorem encode_of_decodeKey (ho : opField w = 0xE#4) (h : decodeKey w = some i) : encode i = w := by
  unfold decodeKey at h
  split at h <;> cases h <;> exact encodeXKK_of_family ho ‹_›

theorem encode_of_decodeMisc (ho : opField w = 0xF#4) (h : decodeMisc w = some i) : encode i = w := by
  unfold decodeMisc at h
  split at h <;> cases h <;> exact encodeXKK_of_family ho ‹_›

/-- A canonical word is written out again from what it decodes to: the decoder's branches, format by format. -/
theorem encode_of_decodeWord (hc : canonicalWord w = true) (h : decodeWord w = some i) : encode i = w := by
  rw [canonicalWord_iff] at hc
  unfold decodeWord at h
  split at h
  case h_1 => exact encode_of_decodeFamily0 h
  -- format NNN
  case h_2 ho | h_3 ho | h_11 ho | h_12 ho => cases h; exact encodeNNN_of_family ho
  -- format XKK
  case h_4 ho | h_5 ho | h_7 ho | h_8 ho | h_13 ho => cases h; exact encodeXKK_of_family ho rfl
  -- `5xy0` and `9xy0`
  case h_6 ho | h_10 ho => cases h; exact ofNibbles_of_family ho (hc (by simp [ho]))
  -- `Dxyn`
  case h_14 ho => cases h; exact ofNibbles_of_family ho rfl
  case h_9 ho => exact encode_of_decodeAlu ho h
  case h_15 ho => exact encode_of_decodeKey ho h
  case h_16 ho => exact encode_of_decodeMisc ho h
  case h_17 => cases h

/-- The other spellings are of the families of `5xyn` and `9xyn`, where the decoder drops `n` (30_encoding.md R77). -/
theorem decodeWord_of_noncanonical (hc : canonicalWord w = false) :
    (opField w = 0x5#4 ∧ decodeWord w = some (.seReg (xField w) (yField w))) ∨
    (opField w = 0x9#4 ∧ decodeWord w = some (.sneReg (xField w) (yField w))) := by
  rw [← Bool.not_eq_true, canonicalWord_iff, Classical.not_imp] at hc
  exact hc.1.imp (fun ho => ⟨ho, by simp [decodeWord, ho]⟩) fun ho => ⟨ho, by simp [decodeWord, ho]⟩

/-- Settles O3: a canonical word is written out again from its fields, `decodeWord_of_noncanonical` names the others. -/
theorem encodeInvertsDecodeOnCanonicalWords : Obligations.EncodeInvertsDecodeOnCanonicalWords := by
  refine fun w i h => ⟨fun hc => encode_of_decodeWord hc h, fun hc => ?_⟩
  rw [and_FFF0]
  obtain ⟨ho, hd⟩ | ⟨ho, hd⟩ := decodeWord_of_noncanonical hc
  all_goals
    obtain rfl := Option.some.inj (h.symm.trans hd)
    rw [ho]
    rfl

/-! ### The words that are no instruction (30_encoding.md R78) -/

/-- The 16 nibbles: no word falls through the decoder's families. -/
theorem nibble_mem_all : ∀ n : Nibble, n ∈ [0x0#4, 0x1#4, 0x2#4, 0x3#4, 0x4#4, 0x5#4, 0x6#4, 0x7#4,
    0x8#4, 0x9#4, 0xA#4, 0xB#4, 0xC#4, 0xD#4, 0xE#4, 0xF#4] := by decide

theorem decodeAlu_eq_none_iff :
    decodeAlu w = none ↔ nField w ∈ [0x8#4, 0x9#4, 0xA#4, 0xB#4, 0xC#4, 0xD#4, 0xF#4] := by
  unfold decodeAlu
  split
  case h_10 =>
    have hn := nibble_mem_all (nField w)
    simp_all
  all_goals simp [*]

theorem decodeKey_eq_none_iff : decodeKey w = none ↔ kkField w ∉ [0x9E#8, 0xA1#8] := by
  unfold decodeKey
  split
  case h_3 => simp_all
  all_goals simp [*]

theorem decodeMisc_eq_none_iff :
    decodeMisc w = none ↔
      kkField w ∉ [0x07#8, 0x0A#8, 0x15#8, 0x18#8, 0x1E#8, 0x29#8, 0x33#8, 0x55#8, 0x65#8] := by
  unfold decodeMisc
  split
  case h_10 => simp_all
  all_goals simp [*]

/-- Settles O5: family 0 has its two words, the families that dispatch further answer by the lemmas above, and every other
family answers an instruction. -/
theorem unknownWordsByFamily : Obligations.UnknownWordsByFamily := by
  intro w
  unfold decodeWord
  split
  case h_1 ho => simp [ho, ite_eq_iff]
  case h_9 ho => simp [ho, decodeAlu_eq_none_iff]
  case h_15 ho => simp [ho, decodeKey_eq_none_iff]
  case h_16 ho => simp [ho, decodeMisc_eq_none_iff]
  case h_17 =>
    have hop := nibble_mem_all (opField w)
    simp_all
  all_goals simp [*]

/-! ### The opcode map (30_encoding.md R75) -/

theorem selects_iff (r : OpcodeRow) (w : Word) : r.selects w = true ↔ w &&& r.mask = r.pattern := decide_eq_true_iff

/-- The encoded word of every instruction selects its row. -/
theorem selects_encode : ∀ i : Instr, i.row.selects (encode i) = true
  | .cls => EncodingRow.cls
  | .ret => EncodingRow.ret
  | .jp nnn => EncodingRow.jp nnn
  | .call nnn => EncodingRow.call nnn
  | .seImm x kk => EncodingRow.seImm x kk
  | .sneImm x kk => EncodingRow.sneImm x kk
  | .seReg x y => EncodingRow.seReg x y
  | .ldImm x kk => EncodingRow.ldImm x kk
  | .addImm x kk => EncodingRow.addImm x kk
  | .ldReg x y => EncodingRow.ldReg x y
  | .orReg x y => EncodingRow.orReg x y
  | .andReg x y => EncodingRow.andReg x y
  | .xorReg x y => EncodingRow.xorReg x y
  | .addReg x y => EncodingRow.addReg x y
  | .subReg x y => EncodingRow.subReg x y
  | .shr x y => EncodingRow.shr x y
  | .subn x y => EncodingRow.subn x y
  | .shl x y => EncodingRow.shl x y
  | .sneReg x y => EncodingRow.sneReg x y
  | .ldI nnn => EncodingRow.ldI nnn
  | .jpV0 nnn => EncodingRow.jpV0 nnn
  | .rnd x kk => EncodingRow.rnd x kk
  | .drw x y n => EncodingRow.drw x y n
  | .skp x => EncodingRow.skp x
  | .sknp x => EncodingRow.sknp x
  | .ldVxDT x => EncodingRow.ldVxDT x
  | .ldVxK x => EncodingRow.ldVxK x
  | .ldDTVx x => EncodingRow.ldDTVx x
  | .ldSTVx x => EncodingRow.ldSTVx x
  | .addI x => EncodingRow.addI x
  | .ldF x => EncodingRow.ldF x
  | .ldB x => EncodingRow.ldB x
  | .storeRegs x => EncodingRow.storeRegs x
  | .loadRegs x => EncodingRow.loadRegs x

/-- A decoded word selects its instruction's row: it is the encoded word, or the row does not look at `n`. -/
theorem selects_of_decodeWord (h : decodeWord w = some i) : i.row.selects w = true := by
  cases hc : canonicalWord w with
  | true => exact encode_of_decodeWord hc h ▸ selects_encode i
  | false =>
    obtain ⟨ho, hd⟩ | ⟨ho, hd⟩ := decodeWord_of_noncanonical hc
    all_goals
      obtain rfl := Option.some.inj (h.symm.trans hd)
      exact selects_F000 _ _ _ (by rw [ho]; decide)

theorem row_mem_opcodeTable (i : Instr) : i.row ∈ opcodeTable := by
  cases i <;> simp [opcodeTable, Instr.row]

/-- Two rows whose patterns agree where both masks look are one row. -/
theorem row_eq_of_patterns_agree :
    ∀ r ∈ opcodeTable, ∀ r' ∈ opcodeTable, r.pattern &&& r'.mask = r'.pattern &&& r.mask → r = r' := by
  decide

/-- No word selects two rows. -/
theorem row_eq_of_selects {r r' : OpcodeRow} (hr : r ∈ opcodeTable) (hr' : r' ∈ opcodeTable)
    (h : r.selects w = true) (h' : r'.selects w = true) : r = r' := by
  have hw : w &&& r.mask = r.pattern := (selects_iff r w).1 h
  have hw' : w &&& r'.mask = r'.pattern := (selects_iff r' w).1 h'
  refine row_eq_of_patterns_agree r hr r' hr' ?_
  rw [← hw, ← hw', BitVec.and_assoc, BitVec.and_assoc, BitVec.and_comm r.mask]

/-- The masks of the families that the decoder looks into beyond the family nibble. -/
theorem mask_of_family : ∀ r ∈ opcodeTable,
    (opField r.pattern = 0x0#4 → r.mask = 0xFFFF#16) ∧ (opField r.pattern = 0x8#4 → r.mask = 0xF00F#16) ∧
    (opField r.pattern = 0xE#4 ∨ opField r.pattern = 0xF#4 → r.mask = 0xF0FF#16) := by
  decide

theorem mask_and_F000 : ∀ r ∈ opcodeTable, r.mask &&& 0xF000#16 = 0xF000#16 := by decide

theorem decodeWord_pattern_ne_none : ∀ r ∈ opcodeTable, decodeWord r.pattern ≠ none := by decide

/-- A row is of the family of the words that select it. -/
theorem opField_of_selects {r : OpcodeRow} (hr : r ∈ opcodeTable) (h : r.selects w = true) : opField r.pattern = opField w := by
  have hw : w &&& r.mask = r.pattern := (selects_iff r w).1 h
  have hF : w &&& 0xF000#16 = r.pattern &&& 0xF000#16 := by rw [← hw, BitVec.and_assoc, mask_and_F000 r hr]
  simpa [and_F000] using congrArg opField hF.symm

/-- The masks keep every bit by which the decoder tells known words from unknown ones. -/
theorem decodeWord_pattern_eq_none {r : OpcodeRow} (hr : r ∈ opcodeTable) (h : r.selects w = true)
    (hn : decodeWord w = none) : decodeWord r.pattern = none := by
  have hop := opField_of_selects hr h
  have hw : w &&& r.mask = r.pattern := (selects_iff r w).1 h
  obtain ⟨h0, h8, hEF⟩ := mask_of_family r hr
  rw [unknownWordsByFamily] at hn ⊢
  rw [hop] at h0 h8 hEF ⊢
  rcases hn with ⟨ho, hne⟩ | ⟨ho, hnn⟩ | ⟨ho, hkk⟩ | ⟨ho, hkk⟩
  · have hp : r.pattern = w := by rw [← hw, h0 ho]; exact BitVec.and_allOnes
    exact .inl ⟨ho, hp ▸ hne⟩
  · have hp : nField r.pattern = nField w := by rw [← hw, h8 ho, and_F00F, nField_ofNibbles]
    exact .inr (.inl ⟨ho, hp ▸ hnn⟩)
  · have hp : kkField r.pattern = kkField w := by rw [← hw, hEF (.inl ho), and_F0FF, kkField_encodeXKK]
    exact .inr (.inr (.inl ⟨ho, hp ▸ hkk⟩))
  · have hp : kkField r.pattern = kkField w := by rw [← hw, hEF (.inr ho), and_F0FF, kkField_encodeXKK]
    exact .inr (.inr (.inr ⟨ho, hp ▸ hkk⟩))

/-- Settles O4: a decoded word selects its instruction's row and no word selects two; a word that selects a row decodes, since
the row's pattern does. -/
theorem decodeFollowsTheOpcodeMap : Obligations.DecodeFollowsTheOpcodeMap := by
  refine ⟨rfl, fun w i hd => ⟨row_mem_opcodeTable i, fun r hr => ⟨fun h => ?_, ?_⟩⟩, fun w hn r hr => ?_⟩
  · exact row_eq_of_selects hr (row_mem_opcodeTable i) h (selects_of_decodeWord hd)
  · rintro rfl
    exact selects_of_decodeWord hd
  · exact Bool.eq_false_iff.2 fun h => decodeWord_pattern_ne_none r hr (decodeWord_pattern_eq_none hr h hn)

end Sys2Proof.Laws

/-! SUPPORT. The STEP cycle (40_step_cycle.md): what STEP is in each status and for each fetched word, the record of a fatal
condition (R94), and the random byte, which matters to `Cxkk` alone (R95). -/

namespace Sys2Proof.Machine

/-! ### STEP (40_step_cycle.md R90, R98) -/

/-- Settles O10: the two statuses in which STEP answers the same state. -/
theorem stepOutsideRunningChangesNothing : Obligations.StepOutsideRunningChangesNothing := by
  intro s hs
  unfold step
  cases hstatus : s.status with
  | running => exact absurd hstatus hs
  | blocked | halted e => rfl

/-- STEP where the fetched word is no instruction (60_exceptions.md R161). -/
theorem step_of_decode_none {s : State} {w : Word} (hrun : s.status = .running) (hf : s.fetch = some w)
    (hd : decodeWord w = none) : step s = .next (s.raiseFatal .unknownOpcode (some w)) := by
  unfold step
  simp only [hrun, hf, hd]

/-- Settles O7: the two bytes at `pc` are the fetched word (20_memory.md R52). -/
theorem stepRunsTheDecodedInstruction : Obligations.StepRunsTheDecodedInstruction := by
  intro s i hrun hpc _ hd
  rw [← wordOfBytes_eq_ofNat] at hd
  exact step_of_decode hrun (State.fetch_some hpc) hd

/-- The word of a jump, by its target. -/
theorem encode_jp (nnn : Addr12) : encode (.jp nnn) = 0x1000#16 + addrOperand nnn := by
  have hn := nnn.isLt
  refine BitVec.eq_of_toNat_eq ((toNat_encodeNNN 0x1#4 nnn).trans ?_)
  simp only [addrOperand, BitVec.toNat_add, BitVec.toNat_setWidth, BitVec.toNat_ofNat]
  omega

/-- Settles O19: the word at `pc` decodes to a jump, and its target is where `pc` is. -/
theorem selfJumpIsAFixedPointOfStep : Obligations.SelfJumpIsAFixedPointOfStep := by
  rintro s ⟨hrun, nnn, hpc, hf⟩
  rw [hpc, ← encode_jp] at hf
  calc step s = exec (.jp nnn) s := step_of_decode hrun hf (Laws.decodeWord_encode _)
    _ = .next (s.setPc s.pc) := by rw [hpc]; rfl
    _ = .next s := rfl

/-! ### The entry of a fatal condition (40_step_cycle.md R94, 60_exceptions.md R167) -/

/-- An instruction that halts has halted from the state before it, with its own word in the record. -/
theorem exec_halted_eq {i : Instr} {s t : State} {e : ErrorRecord} (h : exec i s = .next t) (hrun : s.status = .running)
    (he : t.status = .halted e) : ∃ k, t = s.raiseFatal k (some (encode i)) := by
  cases exec_effect h with
  | halts _ k => exact ⟨k, rfl⟩
  | _ => simp [hrun] at he

/-- An instruction that halts has one spelling (log entry 11): the two with others, `5xyn` and `9xyn`, only skip. -/
theorem encode_eq_of_exec_halted {i : Instr} {s t : State} {w : Word} {e : ErrorRecord} (hd : decodeWord w = some i)
    (h : exec i s = .next t) (hrun : s.status = .running) (he : t.status = .halted e) : encode i = w := by
  cases hc : canonicalWord w with
  | true => exact Laws.encode_of_decodeWord hc hd
  | false =>
    obtain ⟨-, hw⟩ | ⟨-, hw⟩ := Laws.decodeWord_of_noncanonical hc
    all_goals
      obtain rfl := Option.some.inj (hd.symm.trans hw)
      cases h
      simp [hrun] at he

/-- A STEP from RUNNING that halts has halted from the state before it, with what was fetched in the record. -/
theorem step_halted_eq {s t : State} {e : ErrorRecord} (hrun : s.status = .running) (h : step s = .next t)
    (he : t.status = .halted e) : ∃ k, t = s.raiseFatal k s.fetch := by
  obtain ⟨hnot, -⟩ | ⟨-, hpc, rfl⟩ | ⟨w, -, -, hf, -, rfl⟩ | ⟨w, i, -, -, hf, hd, hexec⟩ := step_cases h
  · exact absurd hrun hnot
  · exact ⟨_, by rw [State.fetch_none hpc]⟩
  · exact ⟨_, by rw [hf]⟩
  · rw [hf, ← encode_eq_of_exec_halted hd hexec hrun he]
    exact exec_halted_eq hexec hrun he

/-- There is nothing to fetch exactly above 4094 (20_memory.md R56). -/
theorem State.fetch_eq_none_iff (s : State) : s.fetch = none ↔ 4094 < s.pc.toNat := by
  refine ⟨fun h => ?_, State.fetch_none⟩
  by_contra hpc
  rw [State.fetch_some (by omega)] at h
  cases h

/-- Settles O11: `step_halted_eq`, and the fetch that gives no word. -/
theorem fatalConditionsArePrecise : Obligations.FatalConditionsArePrecise := by
  intro s t e hrun h he
  obtain ⟨k, rfl⟩ := step_halted_eq hrun h he
  cases he
  exact ⟨rfl, rfl, rfl, s.fetch_eq_none_iff⟩

/-! ### The random byte (40_step_cycle.md R95) -/

/-- The state with another source of random bytes (log entry 5). -/
def State.withRandom (s : State) (l : List Byte) (k : Nat) : State := { s with randIn := l, draws := k }

section WithRandom

variable (s : State) (l : List Byte) (k : Nat)

theorem State.skipIf_withRandom (c : Bool) : (s.withRandom l k).skipIf c = (s.skipIf c).withRandom l k := by
  cases c <;> rfl

theorem State.writeResultAndFlag_withRandom (x : RegIdx) (b : Byte) (f : Bool) :
    (s.withRandom l k).writeResultAndFlag x b f = (s.writeResultAndFlag x b f).withRandom l k := by
  simp only [State.writeResultAndFlag, State.withRandom]
  cases s.quirks.vfOrder <;> rfl

theorem State.advanceIndex_withRandom (x : RegIdx) :
    (s.withRandom l k).advanceIndex x = (s.advanceIndex x).withRandom l k := by
  simp only [State.advanceIndex, State.withRandom]
  cases s.quirks.indexAdvance <;> rfl

/-- An instruction other than `Cxkk` does the same from another source of random bytes and leaves that source alone: its check
reads nothing of the source, and neither does its effect. -/
theorem exec_withRandom {i : Instr} (hi : ∀ x kk, i ≠ .rnd x kk) :
    ∃ t, exec i s = .next t ∧ exec i (s.withRandom l k) = .next (t.withRandom l k) := by
  cases i with
  | rnd x kk => exact absurd rfl (hi x kk)
  | cls | jp | jpV0 | ldImm | addImm | ldReg | orReg | andReg | xorReg | ldI | addI | ldF | ldVxDT | ldVxK | ldDTVx | ldSTVx =>
    exact ⟨_, rfl, rfl⟩
  | seImm | sneImm | seReg | sneReg => exact ⟨_, rfl, congrArg _ (s.advance.skipIf_withRandom l k _)⟩
  | addReg | subReg | shr | subn | shl =>
    exact ⟨_, rfl, congrArg _ (s.advance.writeResultAndFlag_withRandom l k _ _ _)⟩
  | ret =>
    by_cases hsp : s.sp.val = 0
    · exact ⟨_, exec_ret_empty hsp, exec_ret_empty hsp⟩
    · exact ⟨_, exec_ret hsp, exec_ret hsp⟩
  | call nnn =>
    by_cases hsp : s.sp.val < 16
    · exact ⟨_, exec_call nnn hsp, exec_call (s := s.withRandom l k) nnn hsp⟩
    · exact ⟨_, exec_call_full nnn hsp, exec_call_full nnn hsp⟩
  | drw x y n =>
    by_cases hb : n.toNat = 0 ∨ s.i.toNat + n.toNat - 1 ≤ 4095
    · exact ⟨_, exec_drw x y n hb, exec_drw x y n hb⟩
    · exact ⟨_, exec_drw_out x y n hb, exec_drw_out x y n hb⟩
  | skp x =>
    obtain hk | hk := le_or_gt (s.reg x).toNat 15
    · exact ⟨_, exec_skp x hk, (exec_skp (s := s.withRandom l k) x hk).trans (congrArg _ (s.advance.skipIf_withRandom l k _))⟩
    · exact ⟨_, exec_skp_out x hk, exec_skp_out x hk⟩
  | sknp x =>
    obtain hk | hk := le_or_gt (s.reg x).toNat 15
    · exact ⟨_, exec_sknp x hk, (exec_sknp (s := s.withRandom l k) x hk).trans (congrArg _ (s.advance.skipIf_withRandom l k _))⟩
    · exact ⟨_, exec_sknp_out x hk, exec_sknp_out x hk⟩
  | ldB x =>
    obtain hb | hb := le_or_gt (s.i.toNat + 2) 4095
    · exact ⟨_, exec_ldB x hb, exec_ldB x hb⟩
    · exact ⟨_, exec_ldB_out x hb, exec_ldB_out x hb⟩
  | storeRegs x =>
    obtain hb | hb := le_or_gt (s.i.toNat + x.toNat) 4095
    · refine ⟨_, exec_storeRegs x hb, ?_⟩
      rw [← State.advanceIndex_withRandom]
      exact exec_storeRegs (s := s.withRandom l k) x hb
    · exact ⟨_, exec_storeRegs_out x hb, exec_storeRegs_out x hb⟩
  | loadRegs x =>
    obtain hb | hb := le_or_gt (s.i.toNat + x.toNat) 4095
    · refine ⟨_, exec_loadRegs x hb, ?_⟩
      rw [← State.advanceIndex_withRandom]
      exact exec_loadRegs (s := s.withRandom l k) x hb
    · exact ⟨_, exec_loadRegs_out x hb, exec_loadRegs_out x hb⟩

end WithRandom

/-- Settles O54: `exec_withRandom`. -/
theorem randomBytesMatterOnlyForRandom : Obligations.RandomBytesMatterOnlyForRandom := fun _ s l k hi =>
  exec_withRandom s l k hi

/-- The next STEP runs a `Cxkk`. -/
def State.RunsRandom (s : State) : Prop :=
  s.status = .running ∧ ∃ w x kk, s.fetch = some w ∧ decodeWord w = some (.rnd x kk)

/-- A STEP that runs no `Cxkk` does the same from another source of random bytes and leaves that source alone. -/
theorem step_withRandom {s : State} (hs : ¬ s.RunsRandom) (l : List Byte) (k : Nat) :
    ∃ t, step s = .next t ∧ step (s.withRandom l k) = .next (t.withRandom l k) := by
  by_cases hrun : s.status = .running
  case neg => exact ⟨s, stepOutsideRunningChangesNothing s hrun, stepOutsideRunningChangesNothing _ hrun⟩
  cases hf : s.fetch with
  | none => exact ⟨_, step_of_fetch_none hrun hf, step_of_fetch_none hrun hf⟩
  | some w =>
    cases hd : decodeWord w with
    | none => exact ⟨_, step_of_decode_none hrun hf hd, step_of_decode_none hrun hf hd⟩
    | some i =>
      rw [step_of_decode hrun hf hd, step_of_decode (s := s.withRandom l k) hrun hf hd]
      refine exec_withRandom s l k fun x kk hi => hs ⟨hrun, w, x, kk, hf, ?_⟩
      rw [hd, hi]

/-- STEP(rand) that runs no `Cxkk` is STEP: the byte is injected and thrown away. -/
theorem applyEvent_step_eq_step {s : State} (hs : ¬ s.RunsRandom) (r : Byte) : applyEvent (.step r) s = step s := by
  obtain ⟨t, ht, hinjected⟩ := step_withRandom hs (r :: s.randIn) s.draws
  obtain ⟨u, hu, hsame⟩ := step_withRandom hs s.randIn s.draws
  cases hu.symm.trans ht
  calc applyEvent (.step r) s = .next (t.withRandom s.randIn s.draws) := applyEvent_step hinjected
    _ = step s := hsame.symm

/-- STEP(rand) that runs a `Cxkk` draws the injected byte, and the source is as it was (42_alu.md R121). -/
theorem applyEvent_step_rnd {s : State} {w : Word} {x : RegIdx} {kk : Byte} (r : Byte) (hrun : s.status = .running)
    (hf : s.fetch = some w) (hd : decodeWord w = some (.rnd x kk)) :
    applyEvent (.step r) s = .next (s.advance.setReg x (r &&& kk)) :=
  applyEvent_step (step_of_decode (s := { s with randIn := r :: s.randIn }) hrun hf hd)

/-- The frame of an instruction that only writes a general register. -/
theorem State.sameButRegsPc_setReg_advance (s : State) (x : RegIdx) (b : Byte) : SameButRegsPc s (s.advance.setReg x b) where
  memory _ := rfl
  index := rfl
  stack := ⟨rfl, rfl⟩
  timers := ⟨rfl, rfl⟩
  screen := rfl
  control := ⟨rfl, rfl, rfl⟩
  parameters := ⟨rfl, rfl, rfl⟩

/-- Settles O29: `applyEvent_step_rnd` with its frame, and `applyEvent_step_eq_step`. -/
theorem stepEventUsesItsByteOnlyForRandom : Obligations.StepEventUsesItsByteOnlyForRandom := by
  refine ⟨fun s w x kk r hrun hf hd => ?_, fun s r hs => ?_⟩
  · exact ⟨_, applyEvent_step_rnd r hrun hf hd, State.reg_setReg_same _ _ _, fun _ hr => State.reg_setReg_ne _ hr _, rfl,
      s.sameButRegsPc_setReg_advance x _⟩
  · refine applyEvent_step_eq_step ?_ r
    rintro ⟨hrun, w, x, kk, hf, hd⟩
    exact hs hrun w x kk hf hd

end Sys2Proof.Machine

/-! SUPPORT. Control flow (41_control_flow.md): jumps and skips touch `pc` alone, a return undoes its call, and no other
instruction does anything to `pc` but the common advance. -/

namespace Sys2Proof.Machine

/-! ### Jumps (41_control_flow.md R101, R107) -/

theorem toNat_addrOperand (nnn : Addr12) : (addrOperand nnn).toNat = nnn.toNat :=
  BitVec.toNat_setWidth_of_le (by decide)

/-- The target of `Bnnn` is not reduced: the sum of 12 bits and 8 bits fits in 16. -/
theorem toNat_addrOperand_add_zext16 (nnn : Addr12) (b : Byte) :
    (addrOperand nnn + zext16 b).toNat = nnn.toNat + b.toNat := by
  have hn := nnn.isLt
  have hb := b.isLt
  have hz : (zext16 b).toNat = b.toNat := BitVec.toNat_setWidth_of_le (by decide)
  rw [BitVec.toNat_add, toNat_addrOperand, hz]
  omega

/-- The frame of a write of `pc`. -/
theorem State.sameButPc_setPc (s : State) (a : Word) : SameButPc s (s.setPc a) where
  registers _ := rfl
  rest := {
    memory := fun _ => rfl
    index := rfl
    stack := ⟨rfl, rfl⟩
    timers := ⟨rfl, rfl⟩
    screen := rfl
    control := ⟨rfl, rfl, rfl⟩
    parameters := ⟨rfl, rfl, rfl⟩ }

/-- Settles O16: each jump is one write of `pc`. -/
theorem jumpsSetPc : Obligations.JumpsSetPc :=
  ⟨fun nnn s => ⟨_, rfl, toNat_addrOperand nnn, s.sameButPc_setPc _⟩,
    fun nnn s => ⟨_, rfl, toNat_addrOperand_add_zext16 nnn _, s.sameButPc_setPc _⟩⟩

/-! ### Skips (41_control_flow.md R103 to R106) -/

/-- The common advance and the skip after it are one write of `pc` (40_step_cycle.md R93). -/
theorem State.skipIf_advance (s : State) (c : Bool) :
    s.advance.skipIf c = s.setPc (s.pc + if c then 4#16 else 2#16) := by
  cases c with
  | false => rfl
  | true => exact congrArg s.setPc (BitVec.add_assoc s.pc 2#16 2#16)

theorem State.sameButPc_skipIf_advance (s : State) (c : Bool) : SameButPc s (s.advance.skipIf c) := by
  rw [State.skipIf_advance]
  exact s.sameButPc_setPc _

theorem State.skipIf_advance_pc_of_true (s : State) {c : Bool} (h : c = true) : (s.advance.skipIf c).pc = s.pc + 4#16 := by
  rw [State.skipIf_advance, if_pos h, State.setPc_pc]

theorem State.skipIf_advance_pc_of_false (s : State) {c : Bool} (h : c = false) : (s.advance.skipIf c).pc = s.pc + 2#16 := by
  rw [h]
  rfl

/-- Settles O17: the two outcomes of a skip, by its condition. -/
theorem skipsAddFourOrTwo : Obligations.SkipsAddFourOrTwo := by
  refine ⟨fun x kk s => ?seImm, fun x kk s => ?sneImm, fun x y s => ?seReg, fun x y s => ?sneReg⟩
  case seImm | seReg =>
    exact ⟨_, rfl, s.sameButPc_skipIf_advance _, fun h => s.skipIf_advance_pc_of_true (decide_eq_true h),
      fun h => s.skipIf_advance_pc_of_false (decide_eq_false h)⟩
  case sneImm | sneReg =>
    exact ⟨_, rfl, s.sameButPc_skipIf_advance _, fun h => s.skipIf_advance_pc_of_true (decide_eq_true h),
      fun h => s.skipIf_advance_pc_of_false (decide_eq_false (not_not_intro h))⟩

/-! ### Calls and returns (41_control_flow.md R100, R102) -/

/-- A return from depth `j + 1`: the slot read is `j`, and so is the depth after it. -/
theorem exec_ret_of_depth {s : State} {j : Nat} (hj : j < 16) (h : s.sp.val = j + 1) :
    exec .ret s = .next { s with pc := s.stack[j], sp := ⟨j, by omega⟩ } := by
  have hpred : s.sp.val - 1 = j := by omega
  rw [exec_ret (by omega)]
  simp only [hpred]

/-- Settles O18: the call stores the return address in slot `sp`, and the return reads that slot. -/
theorem callThenReturnRestoresPcAndDepth : Obligations.CallThenReturnRestoresPcAndDepth := by
  intro nnn s t u hsp hcall hdepth hslot
  rw [exec_call nnn hsp] at hcall
  cases hcall
  have hu : u.sp.val = s.sp.val + 1 := congrArg Fin.val hdepth
  have hpushed : u.stack[s.sp.val] = s.pc + 2#16 := (hslot hsp).trans (Vector.getElem_set_self hsp)
  exact ⟨_, exec_ret_of_depth hsp hu, hpushed, rfl⟩

/-! ### `pc` over all instructions (41_control_flow.md R108, 10_state.md R23) -/

theorem State.pc_of_memWrite {s t : State} {a : Nat} {bs : List Byte} (h : s.memWrite a bs = some t) : t.pc = s.pc := by
  unfold State.memWrite at h
  split at h <;> cases h
  rfl

/-- A pop takes `pc` from the slot below the depth. -/
theorem State.pc_of_popReturn {s t : State} (h : s.popReturn = some t) :
    ∃ j, ∃ hj : j < 16, j + 1 = s.sp.val ∧ t.pc = s.stack[j] := by
  by_cases hsp : s.sp.val = 0
  · rw [State.popReturn_none hsp] at h
    cases h
  · rw [State.popReturn_some hsp] at h
    cases h
    exact ⟨s.sp.val - 1, by omega, by omega, rfl⟩

theorem State.skipIf_advance_pc_two_or_four (s : State) (c : Bool) :
    (s.advance.skipIf c).pc = s.pc + 2#16 ∨ (s.advance.skipIf c).pc = s.pc + 4#16 := by
  cases c with
  | false => exact .inl (s.skipIf_advance_pc_of_false rfl)
  | true => exact .inr (s.skipIf_advance_pc_of_true rfl)

/-- Settles O20: an instruction with a check that does not halt took its effect (`State.orRaise_safe`), and only the effects of
control transfers and skips write `pc` beyond the common advance. -/
theorem pcChangesOnlyByControlTransfer : Obligations.PcChangesOnlyByControlTransfer := by
  intro i s t _ h ht
  cases i with
  | jp => cases h; rfl
  | jpV0 nnn =>
    cases h
    exact (toNat_addrOperand_add_zext16 nnn _).trans_le (Nat.add_le_add_left (Nat.le_of_lt_succ (s.reg 0#4).isLt) _)
  | call =>
    obtain ⟨p, -, rfl⟩ := Option.map_eq_some_iff.1 (State.orRaise_safe h ht)
    rfl
  | ret => exact State.pc_of_popReturn (State.orRaise_safe h ht)
  | seImm | sneImm | seReg | sneReg => cases h; exact s.skipIf_advance_pc_two_or_four _
  | skp | sknp =>
    obtain ⟨k, -, rfl⟩ := Option.map_eq_some_iff.1 (State.orRaise_safe h ht)
    exact s.skipIf_advance_pc_two_or_four _
  | ldB => exact State.pc_of_memWrite (State.orRaise_safe h ht)
  | storeRegs x =>
    obtain ⟨p, hp, rfl⟩ := Option.map_eq_some_iff.1 (State.orRaise_safe h ht)
    exact (p.advanceIndex_pc x).trans (State.pc_of_memWrite hp)
  | drw | loadRegs =>
    obtain ⟨bytes, -, rfl⟩ := Option.map_eq_some_iff.1 (State.orRaise_safe h ht)
    simp
  | cls | ldImm | addImm | ldReg | orReg | andReg | xorReg | addReg | subReg | shr | subn | shl | rnd | ldI | addI | ldF |
    ldVxDT | ldVxK | ldDTVx | ldSTVx => cases h; simp

end Sys2Proof.Machine

/-! SUPPORT. Register loads and the 8-bit ALU (42_alu.md): the words that decode to an instruction by a mask of R75, the frame of a
register write, the two writes of a flag writer (40_step_cycle.md R97) with result and flag as numbers, and the draw of `Cxkk`. -/

namespace Sys2Proof.Machine

/-! ### The words of an instruction (30_encoding.md R75) -/

/-- A word that the encoder writes for an instruction decodes to it. -/
theorem decodeWord_of_encode_eq {w : Word} {i : Instr} (h : encode i = w) : decodeWord w = some i :=
  h ▸ Laws.decodeWord_encode i

theorem opField_nField_of_and_F00F {w : Word} {op n : Nibble} (h : w &&& 0xF00F#16 = ofNibbles op 0#4 0#4 n) :
    opField w = op ∧ nField w = n := by
  rw [and_F00F] at h
  exact ⟨by simpa using congrArg opField h, by simpa using congrArg nField h⟩

/-- A word with the family and the low nibble of an instruction of the format XY is that instruction's word. -/
theorem encode_of_and_F00F {w : Word} {i : Instr} (op n : Nibble) (h : w &&& 0xF00F#16 = ofNibbles op 0#4 0#4 n)
    (hi : encode i = ofNibbles op (xField w) (yField w) n) : encode i = w := by
  obtain ⟨ho, hn⟩ := opField_nField_of_and_F00F h
  exact hi.trans (Laws.ofNibbles_of_family ho hn)

/-- A word with the family of an instruction of the format XKK is that instruction's word. -/
theorem encode_of_and_F000 {w : Word} {i : Instr} (op : Nibble) (h : w &&& 0xF000#16 = ofNibbles op 0#4 0#4 0#4)
    (hi : encode i = encodeXKK op (xField w) (kkField w)) : encode i = w :=
  hi.trans (Laws.encodeXKK_of_family ((Laws.and_F000_eq_iff w op).1 h) rfl)

/-! ### Loads, moves and the bitwise instructions (42_alu.md R110 to R115) -/

/-- The registers, `pc` and the rest after an instruction that only writes a general register. -/
theorem State.frame_setReg_advance (s : State) (x : RegIdx) (b : Byte) :
    SameRegsBut (· = x) s (s.advance.setReg x b) ∧ (s.advance.setReg x b).pc = s.pc + 2#16 ∧
      SameButRegsPc s (s.advance.setReg x b) :=
  ⟨fun _ hr => State.reg_setReg_ne _ hr b, rfl, s.sameButRegsPc_setReg_advance x b⟩

/-- Settles O21: the one write, with its frame. -/
theorem loadImmediateSetsVx : Obligations.LoadImmediateSetsVx :=
  ⟨fun _ hw => decodeWord_of_encode_eq (encode_of_and_F000 0x6#4 hw rfl),
    fun x kk s => ⟨_, rfl, State.reg_setReg_same _ x kk, s.frame_setReg_advance x kk⟩⟩

/-- Settles O22: the one write, of a sum that `BitVec` addition takes modulo 256, with its frame. -/
theorem addImmediateWrapsWithoutFlag : Obligations.AddImmediateWrapsWithoutFlag := by
  refine ⟨fun _ hw => decodeWord_of_encode_eq (encode_of_and_F000 0x7#4 hw rfl),
    fun x kk s => ⟨_, rfl, ?sum, s.frame_setReg_advance x _⟩⟩
  case sum => rw [State.reg_setReg_same, BitVec.toNat_add]

/-- Settles O23: each of the four is one write of a byte computed bit by bit from the old operands. -/
theorem movesAndBitwiseWriteOnlyVx : Obligations.MovesAndBitwiseWriteOnlyVx := by
  intro x y s
  refine ⟨⟨_, rfl, State.reg_setReg_same _ x _, s.frame_setReg_advance x _⟩,
    ⟨_, rfl, fun b => ?or, s.frame_setReg_advance x _⟩, ⟨_, rfl, fun b => ?and, s.frame_setReg_advance x _⟩,
    ⟨_, rfl, fun b => ?xor, s.frame_setReg_advance x _⟩⟩
  case or => rw [State.reg_setReg_same, BitVec.getLsbD_or]
  case and => rw [State.reg_setReg_same, BitVec.getLsbD_and]
  case xor => rw [State.reg_setReg_same, BitVec.getLsbD_xor]

/-! ### The flag writers (42_alu.md R116 to R120, 40_step_cycle.md R97) -/

theorem toNat_flagByte (f : Bool) : (flagByte f).toNat = f.toNat := by cases f <;> rfl

/-- The two writes as numbers: apart where `x` is not VF, and the later one where it is. -/
theorem State.resultAndFlag_writeResultAndFlag (s : State) (x : RegIdx) (b : Byte) (f : Bool) :
    ResultAndFlag s (s.advance.writeResultAndFlag x b f) x b.toNat f.toNat where
  apart hx := by simp [State.reg_writeResultAndFlag, hx, hx.symm, toNat_flagByte]
  flagLast hx hq := by simp [State.reg_writeResultAndFlag, hx, hq, toNat_flagByte]
  resultLast hx hq := by simp [State.reg_writeResultAndFlag, hx, hq]
  others r hr := by
    obtain ⟨hrx, hrv⟩ := not_or.1 hr
    simp [State.reg_writeResultAndFlag, hrx, hrv]

/-- The frame of a flag writer. -/
theorem State.sameButRegsPc_writeResultAndFlag_advance (s : State) (x : RegIdx) (b : Byte) (f : Bool) :
    SameButRegsPc s (s.advance.writeResultAndFlag x b f) where
  memory a := congrArg (Memory.byteAt · a) (s.advance.writeResultAndFlag_mem x b f)
  index := s.advance.writeResultAndFlag_i x b f
  stack := ⟨s.advance.writeResultAndFlag_stack x b f, s.advance.writeResultAndFlag_sp x b f⟩
  timers := ⟨s.advance.writeResultAndFlag_dt x b f, s.advance.writeResultAndFlag_st x b f⟩
  screen := s.advance.writeResultAndFlag_fb x b f
  control := ⟨s.advance.writeResultAndFlag_keypad x b f, s.advance.writeResultAndFlag_wait x b f,
    s.advance.writeResultAndFlag_status x b f⟩
  parameters := ⟨s.advance.writeResultAndFlag_quirks x b f, s.advance.writeResultAndFlag_randIn x b f,
    s.advance.writeResultAndFlag_draws x b f⟩

/-- A flag writer, by the two numbers that it computes. -/
theorem exec_flagWriter {i : Instr} {s : State} {x : RegIdx} {b : Byte} {f : Bool} {result flag : Nat}
    (h : exec i s = .next (s.advance.writeResultAndFlag x b f)) (hb : b.toNat = result) (hf : f.toNat = flag) :
    ∃ t, exec i s = .next t ∧ ResultAndFlag s t x result flag ∧ t.pc = s.pc + 2#16 ∧ SameButRegsPc s t := by
  subst hb hf
  exact ⟨_, h, s.resultAndFlag_writeResultAndFlag x b f, s.advance.writeResultAndFlag_pc x b f,
    s.sameButRegsPc_writeResultAndFlag_advance x b f⟩

theorem toNat_carryFlag (a b : Byte) : (carryFlag a b).toNat = if a.toNat + b.toNat > 255 then 1 else 0 :=
  Bool.cond_decide _ _ _

theorem toNat_noBorrowFlag (a b : Byte) : (noBorrowFlag a b).toNat = if a.toNat ≥ b.toNat then 1 else 0 :=
  Bool.cond_decide _ _ _

/-- The difference modulo 256, with the 256 added before the subtraction so that it is one of natural numbers. -/
theorem toNat_sub_byte (a b : Byte) : (a - b).toNat = (a.toNat + 256 - b.toNat) % 256 := by
  rw [BitVec.toNat_sub]
  omega

/-- Settles O24: the word by its family and low nibble, the sum modulo 256 and the carry through `exec_flagWriter`. -/
theorem addSetsSumAndCarry : Obligations.AddSetsSumAndCarry :=
  ⟨fun _ hw => decodeWord_of_encode_eq (encode_of_and_F00F 0x8#4 0x4#4 hw rfl),
    fun _ _ _ => exec_flagWriter rfl (BitVec.toNat_add _ _) (toNat_carryFlag _ _)⟩

/-- Settles O25: the word by its family and low nibble, the difference and the no-borrow flag through `exec_flagWriter`. -/
theorem subtractSetsDifferenceAndNoBorrow : Obligations.SubtractSetsDifferenceAndNoBorrow :=
  ⟨fun _ hw => decodeWord_of_encode_eq (encode_of_and_F00F 0x8#4 0x5#4 hw rfl),
    fun _ _ _ => exec_flagWriter rfl (toNat_sub_byte _ _) (toNat_noBorrowFlag _ _)⟩

/-- Settles O26: the numbers of `8xy5` with the operands exchanged. -/
theorem reverseSubtractSetsDifferenceAndNoBorrow : Obligations.ReverseSubtractSetsDifferenceAndNoBorrow :=
  fun _ _ _ => exec_flagWriter rfl (toNat_sub_byte _ _) (toNat_noBorrowFlag _ _)

theorem State.shiftOperand_eq_ite (s : State) (x y : RegIdx) :
    s.shiftOperand x y = if s.quirks.shiftSource = .vx then s.reg x else s.reg y := by
  unfold State.shiftOperand
  cases s.quirks.shiftSource <;> rfl

theorem toNat_shiftRight_one (b : Byte) : (b >>> 1).toNat = b.toNat / 2 := by
  rw [BitVec.toNat_ushiftRight, Nat.shiftRight_one]

theorem toNat_shiftLeft_one (b : Byte) : (b <<< 1).toNat = b.toNat * 2 % 256 := by
  rw [BitVec.toNat_shiftLeft, Nat.shiftLeft_eq]

theorem toNat_shiftedOutRight (b : Byte) : (shiftedOutRight b).toNat = b.toNat % 2 := by
  rw [shiftedOutRight, BitVec.getLsbD, Nat.toNat_testBit, pow_zero, Nat.div_one]

theorem toNat_shiftedOutLeft (b : Byte) : (shiftedOutLeft b).toNat = b.toNat / 128 := by
  have hb := b.isLt
  rw [shiftedOutLeft, BitVec.getLsbD, Nat.toNat_testBit]
  omega

/-- Settles O27: both shifts move the operand of the profile, and the flag is the bit of it that is lost. -/
theorem shiftsMoveOnePlace : Obligations.ShiftsMoveOnePlace := by
  intro x y s b hb
  rw [← State.shiftOperand_eq_ite] at hb
  subst hb
  exact ⟨exec_flagWriter rfl (toNat_shiftRight_one _) (toNat_shiftedOutRight _),
    exec_flagWriter rfl (toNat_shiftLeft_one _) (toNat_shiftedOutLeft _)⟩

/-! ### The random byte (42_alu.md R121, 40_step_cycle.md R95) -/

/-- `Cxkk` with an injected byte: the byte leaves the list, and no free one is drawn. -/
theorem exec_rnd_injected {s : State} {r : Byte} {rest : List Byte} (x : RegIdx) (kk : Byte) (h : s.randIn = r :: rest) :
    exec (.rnd x kk) s = .next ((s.withRandom rest s.draws).advance.setReg x (r &&& kk)) := by
  show execRnd x kk s = _
  rw [execRnd, State.randomByte_cons h, State.dropRandom_cons (s := s.advance) h]
  rfl

/-- `Cxkk` without an injected byte: the next draw is another free byte (log entry 5). -/
theorem exec_rnd_free {s : State} (x : RegIdx) (kk : Byte) (h : s.randIn = []) :
    exec (.rnd x kk) s =
      .next ((s.withRandom [] (s.draws + 1)).advance.setReg x (Config.randomByte s.draws &&& kk)) := by
  show execRnd x kk s = _
  rw [execRnd, State.randomByte_nil h, State.dropRandom_nil (s := s.advance) h, ← h]
  rfl

/-- Settles O28: either way `Cxkk` is one register write over another source of random bytes. -/
theorem randomAndMaskSetsVx : Obligations.RandomAndMaskSetsVx := by
  refine ⟨fun x kk r rest s h => ⟨_, exec_rnd_injected x kk h, ?_⟩, fun x kk s h => ⟨_, exec_rnd_free x kk h, ?_⟩⟩
  all_goals
    exact ⟨State.reg_setReg_same _ x _, rfl, rfl, rfl, fun _ hr => State.reg_setReg_ne _ hr _, rfl, fun _ => rfl, rfl,
      ⟨rfl, rfl⟩, ⟨rfl, rfl⟩, rfl, ⟨rfl, rfl, rfl⟩⟩

end Sys2Proof.Machine

/-! SUPPORT. The index register and the block transfers (43_index_memory.md R130 to R135): a write of `I` with its frame, `I` after a
block transfer (decision D3), and the words that the two block transfers leave in the error record. -/

namespace Sys2Proof.Machine

/-! ### Writes of `I` (43_index_memory.md R130 to R132) -/

theorem toNat_zext16 (b : Byte) : (zext16 b).toNat = b.toNat := BitVec.toNat_setWidth_of_le (by decide)

/-- `Fx1E` wraps at 65536 and masks nothing (decision D18). -/
theorem toNat_add_zext16 (a : Word) (b : Byte) : (a + zext16 b).toNat = (a.toNat + b.toNat) % 65536 := by
  rw [BitVec.toNat_add, toNat_zext16]

/-- The largest glyph address is 255 * 5, so nothing is reduced (decision D26). -/
theorem toNat_glyphAddress (b : Byte) : (glyphAddress b).toNat = b.toNat * 5 := by
  have hlt : b.toNat * 5 < 65536 := by
    have hb := b.isLt
    omega
  exact Nat.mod_eq_of_lt hlt

/-- A writer of `I`, by the number that it computes, with its frame. -/
theorem exec_indexWriter {i : Instr} {s : State} {a : Word} {n : Nat} (h : exec i s = .next (s.advance.setIndex a))
    (ha : a.toNat = n) :
    ∃ t, exec i s = .next t ∧ t.i.toNat = n ∧ t.pc = s.pc + 2#16 ∧ SameRegs s t ∧ SameMemory s t ∧ SameStack s t ∧
      SameTimers s t ∧ SameScreen s t ∧ SameControl s t ∧ SameParameters s t :=
  ⟨_, h, ha, rfl, fun _ => rfl, fun _ => rfl, ⟨rfl, rfl⟩, ⟨rfl, rfl⟩, rfl, ⟨rfl, rfl, rfl⟩, ⟨rfl, rfl, rfl⟩⟩

/-- Settles O31: each of the three is one write of `I`, and `exec_indexWriter` gives its frame. -/
theorem indexWritesSetI : Obligations.IndexWritesSetI :=
  ⟨fun nnn _ => exec_indexWriter rfl (toNat_addrOperand nnn),
    fun x s => exec_indexWriter rfl (toNat_add_zext16 s.i (s.reg x)),
    fun x s => exec_indexWriter rfl (toNat_glyphAddress (s.reg x))⟩

/-! ### `I` and the frame after a block transfer (43_index_memory.md R134, R135, decision D3) -/

theorem State.advanceIndex_i_of_unchanged {s : State} (x : RegIdx) (hq : s.quirks.indexAdvance = .unchanged) :
    (s.advanceIndex x).i = s.i := by
  rw [State.advanceIndex_i, hq]

/-- Inside the bound the advance does not wrap. -/
theorem State.toNat_advanceIndex_i_of_advance {s : State} {x : RegIdx} (hb : s.i.toNat + x.toNat ≤ 4095)
    (hq : s.quirks.indexAdvance = .advance) : (s.advanceIndex x).i.toNat = s.i.toNat + x.toNat + 1 := by
  rw [State.advanceIndex_i, hq]
  simp only [BitVec.toNat_add, BitVec.toNat_ofNat]
  omega

theorem State.frame_advanceIndex (s : State) (x : RegIdx) :
    SameStack s (s.advanceIndex x) ∧ SameTimers s (s.advanceIndex x) ∧ SameScreen s (s.advanceIndex x) ∧
      SameControl s (s.advanceIndex x) ∧ SameParameters s (s.advanceIndex x) :=
  ⟨⟨s.advanceIndex_stack x, s.advanceIndex_sp x⟩, ⟨s.advanceIndex_dt x, s.advanceIndex_st x⟩, s.advanceIndex_fb x,
    ⟨s.advanceIndex_keypad x, s.advanceIndex_wait x, s.advanceIndex_status x⟩,
    ⟨s.advanceIndex_quirks x, s.advanceIndex_randIn x, s.advanceIndex_draws x⟩⟩

/-! ### The block store (43_index_memory.md R134) -/

/-- The block of `Fx55` ends inside memory (decision D9). -/
theorem State.regsUpTo_end_le {s : State} {x : RegIdx} (hb : s.i.toNat + x.toNat ≤ 4095) :
    s.indexBase + (s.regsUpTo x).length ≤ 4096 := by
  rw [State.length_regsUpTo]
  exact Nat.succ_le_succ hb

/-- Register `r` of a stored block is read back `r` bytes above its base. -/
theorem Memory.byteAt_putFrom_regsUpTo {m : Memory} {a : Nat} (s : State) {x r : RegIdx} (hm : m.wf = true)
    (ha : a + (s.regsUpTo x).length ≤ 4096) (hr : r.toNat ≤ x.toNat) :
    (m.putFrom a (s.regsUpTo x)).byteAt (a + r.toNat) = s.reg r := by
  have hlt : r.toNat < (s.regsUpTo x).length := by
    rw [State.length_regsUpTo]
    exact Nat.lt_succ_of_le hr
  rw [Memory.byteAt_putFrom _ hm ha hlt, State.getElem_regsUpTo]

theorem encode_storeRegs (x : RegIdx) : encode (.storeRegs x) = 0xF055#16 ||| (x.setWidth 16 <<< 8) :=
  encodeXKK_eq_or 0xF#4 x 0x55#8

/-- Settles O33: inside the bound `exec_storeRegs` names the next state, memory with the block stored over it and `I` advanced; past
it `exec_storeRegs_out` names the halted one. -/
theorem registerDumpStoresTheBlock : Obligations.RegisterDumpStoresTheBlock := by
  refine ⟨fun x s hm hb => ⟨_, exec_storeRegs x hb, fun r hr => ?stored, fun a ha => ?outside,
    fun hq => State.advanceIndex_i_of_unchanged x hq, fun hq => State.toNat_advanceIndex_i_of_advance hb hq,
    State.advanceIndex_pc _ x,
    State.reg_advanceIndex _ x, State.frame_advanceIndex _ x⟩, fun x s hb => ?halts⟩
  case stored =>
    rw [State.advanceIndex_mem]
    exact Memory.byteAt_putFrom_regsUpTo s hm (State.regsUpTo_end_le hb) hr
  case outside =>
    rw [State.advanceIndex_mem]
    rw [← State.length_regsUpTo s] at ha
    exact Memory.byteAt_putFrom_outside _ hm (State.regsUpTo_end_le hb) ha
  case halts =>
    rw [exec_storeRegs_out x hb, encode_storeRegs]
    rfl

/-! ### The block load (43_index_memory.md R135) -/

/-- A load of `n` bytes of memory: the registers below `n` take them, the others stay. -/
theorem State.reg_loadFromZero_bytesFrom (s : State) (m : Memory) (a n : Nat) (r : RegIdx) :
    (s.loadFromZero (m.bytesFrom a n)).reg r = if r.toNat < n then m.byteAt (a + r.toNat) else s.reg r := by
  simp only [State.reg_loadFromZero, Memory.length_bytesFrom, Memory.getElem_bytesFrom, dite_eq_ite]

theorem encode_loadRegs (x : RegIdx) : encode (.loadRegs x) = 0xF065#16 ||| (x.setWidth 16 <<< 8) :=
  encodeXKK_eq_or 0xF#4 x 0x65#8

/-- Settles O34: inside the bound `exec_loadRegs` names the next state, the block of memory in the registers up to `x` and `I`
advanced; past it `exec_loadRegs_out` names the halted one. -/
theorem registerLoadReadsTheBlock : Obligations.RegisterLoadReadsTheBlock := by
  refine ⟨fun x s hb => ⟨_, exec_loadRegs x hb, fun r hr => ?loaded, fun r hr => ?above, fun a => ?memory,
    fun hq => State.advanceIndex_i_of_unchanged x hq, fun hq => State.toNat_advanceIndex_i_of_advance hb hq,
    State.advanceIndex_pc _ x,
    State.frame_advanceIndex _ x⟩, fun x s hb => ?halts⟩
  case loaded =>
    rw [State.reg_advanceIndex, State.reg_loadFromZero_bytesFrom, if_pos (Nat.lt_succ_of_le hr)]
    rfl
  case above =>
    rw [State.reg_advanceIndex, State.reg_loadFromZero_bytesFrom, if_neg (mt Nat.le_of_lt_succ hr)]
    rfl
  case memory =>
    rw [State.advanceIndex_mem]
    rfl
  case halts =>
    rw [exec_loadRegs_out x hb, encode_loadRegs]
    rfl

end Sys2Proof.Machine

/-! SUPPORT. The display (44_display.md R140, R141): the framebuffer as its cells, what a clear and a draw do to them, and VF as
what the draw did to the cells that were on. -/

namespace Sys2Proof.Machine

/-! ### The framebuffer as its cells -/

/-- The read port sees the whole framebuffer. -/
theorem State.fb_eq_of_pixel_eq {s t : State} (h : ∀ r c, t.pixel r c = s.pixel r c) : t.fb = s.fb :=
  Vector.ext fun r hr => Vector.ext fun c hc => h ⟨r, hr⟩ ⟨c, hc⟩

@[simp] theorem State.pixel_clearScreen (s : State) (r : Fin 32) (c : Fin 64) : s.clearScreen.pixel r c = false := by
  rw [State.pixel]
  simp

/-- Settles O38: the cells by `pixel_clearScreen`, and the frame because the advance writes `pc` and the clear writes `fb` alone. -/
theorem clearScreenTurnsEveryCellOff : Obligations.ClearScreenTurnsEveryCellOff :=
  fun s => ⟨_, rfl, s.advance.pixel_clearScreen, rfl, fun _ => rfl, fun _ => rfl, rfl, ⟨rfl, rfl⟩, ⟨rfl, rfl⟩,
    ⟨rfl, rfl, rfl⟩, ⟨rfl, rfl, rfl⟩⟩

/-! ### The cells and VF after a draw (44_display.md R141) -/

section Draw

variable (s : State) (x0 y0 : Byte) {rows : List Byte} (hl : rows.length ≤ 16)
include hl

/-- A draw inverts exactly the covered cells. -/
theorem State.pixel_drawSprite_ne_iff (r : Fin 32) (c : Fin 64) :
    (s.drawSprite x0 y0 rows).pixel r c ≠ s.pixel r c ↔
      SpriteCovers s.quirks.drawEdge x0.toNat y0.toNat rows r.val c.val := by
  rw [State.pixel_drawSprite s x0 y0 rows hl, ← rowsCover_iff]
  cases rowsCover s.quirks.drawEdge x0.toNat y0.toNat r.val c.val rows with
  | false => simp
  | true => simp

/-- A cell that was on is off after a draw exactly when the sprite covers it. -/
theorem State.pixel_drawSprite_turnsOff_iff {r : Fin 32} {c : Fin 64} (hon : s.pixel r c = true) :
    (s.drawSprite x0 y0 rows).pixel r c = false ↔
      rowsCover s.quirks.drawEdge x0.toNat y0.toNat r.val c.val rows = true := by
  rw [State.pixel_drawSprite s x0 y0 rows hl, hon]
  simp

/-- VF is the collision: 1 when the draw turned a cell off, and 0 when it turned none off. -/
theorem State.vf_drawSprite_cases :
    (s.drawSprite x0 y0 rows).reg vf = 1#8 ∧
        (∃ r c, s.pixel r c = true ∧ (s.drawSprite x0 y0 rows).pixel r c = false) ∨
      (s.drawSprite x0 y0 rows).reg vf = 0#8 ∧
        ¬ ∃ r c, s.pixel r c = true ∧ (s.drawSprite x0 y0 rows).pixel r c = false := by
  have hoff : (∃ r c, s.pixel r c = true ∧ (s.drawSprite x0 y0 rows).pixel r c = false) ↔
      ∃ r c, s.pixel r c = true ∧ rowsCover s.quirks.drawEdge x0.toNat y0.toNat r.val c.val rows = true :=
    exists₂_congr fun _ _ => and_congr_right (s.pixel_drawSprite_turnsOff_iff x0 y0 hl)
  rw [hoff]
  exact s.vf_drawSprite x0 y0 rows hl

theorem State.vf_drawSprite_of_turnsOff
    (h : ∃ r c, s.pixel r c = true ∧ (s.drawSprite x0 y0 rows).pixel r c = false) :
    (s.drawSprite x0 y0 rows).reg vf = 1#8 := by
  obtain ⟨hv, -⟩ | ⟨-, hnone⟩ := s.vf_drawSprite_cases x0 y0 hl
  · exact hv
  · exact absurd h hnone

theorem State.vf_drawSprite_of_keepsOn
    (h : ∀ r c, s.pixel r c = true → (s.drawSprite x0 y0 rows).pixel r c = true) :
    (s.drawSprite x0 y0 rows).reg vf = 0#8 := by
  obtain ⟨-, r, c, hon, hoff⟩ | ⟨hv, -⟩ := s.vf_drawSprite_cases x0 y0 hl
  · rw [h r c hon] at hoff
    cases hoff
  · exact hv

/-- A second draw of the same sprite at the same place inverts the same cells again. -/
theorem State.fb_drawSprite_drawSprite : ((s.drawSprite x0 y0 rows).drawSprite x0 y0 rows).fb = s.fb := by
  refine State.fb_eq_of_pixel_eq fun r c => ?_
  rw [State.pixel_drawSprite _ x0 y0 rows hl, State.pixel_drawSprite s x0 y0 rows hl, State.drawSprite_quirks, Bool.xor_assoc,
    Bool.xor_self, Bool.xor_false]

end Draw

/-! ### The instruction `Dxyn` (44_display.md R141) -/

/-- A sprite whose length is a nibble meets the bound on rows that the lemmas on draws ask for. -/
theorem Memory.length_bytesFrom_nibble_le (m : Memory) (a : Nat) (n : Nibble) : (m.bytesFrom a n.toNat).length ≤ 16 := by
  rw [Memory.length_bytesFrom]
  exact Nat.le_of_lt n.isLt

theorem toNat_nibble_eq_zero_iff (n : Nibble) : n.toNat = 0 ↔ n = 0#4 :=
  BitVec.toNat_inj (y := 0#4)

theorem encode_drw (x y : RegIdx) (n : Nibble) :
    encode (.drw x y n) = 0xD000#16 ||| (x.setWidth 16 <<< 8) ||| (y.setWidth 16 <<< 4) ||| n.setWidth 16 :=
  ofNibbles_eq_or 0xD#4 x y n

/-- Settles O39: inside the bound `exec_drw` names the next state, a draw after the advance, whose cells and VF are those of the
lemmas above; past it `exec_drw_out` names the halted one. -/
theorem drawInvertsTheCoveredCells : Obligations.DrawInvertsTheCoveredCells := by
  refine ⟨fun x y n s hb => ?inside, fun x y n s hn hb => ?halts⟩
  case inside =>
    rw [← toNat_nibble_eq_zero_iff] at hb
    have hl := s.mem.length_bytesFrom_nibble_le s.indexBase n
    refine ⟨_, exec_drw x y n hb, fun r c => ?cells, s.advance.vf_drawSprite_of_turnsOff _ _ hl,
      s.advance.vf_drawSprite_of_keepsOn _ _ hl, fun r hr => s.advance.reg_drawSprite_ne _ _ _ hr, rfl, fun _ => rfl, rfl,
      ⟨rfl, rfl⟩, ⟨rfl, rfl⟩, ⟨rfl, rfl, rfl⟩, ⟨rfl, rfl, rfl⟩⟩
    rw [show s.i.toNat = s.indexBase from rfl, ← Memory.bytesFrom_eq_map]
    exact s.advance.pixel_drawSprite_ne_iff _ _ hl r c
  case halts =>
    have hlen : n.toNat ≠ 0 := mt (toNat_nibble_eq_zero_iff n).1 hn
    rw [exec_drw_out x y n (by omega), encode_drw]
    rfl

/-- Settles O40: the first draw leaves the two coordinate registers, `I` and memory alone, so the second draws the same sprite at the
same place, and `fb_drawSprite_drawSprite` says what two such draws do. -/
theorem drawingTwiceRestoresTheScreen : Obligations.DrawingTwiceRestoresTheScreen := by
  intro x y n s t hx hy hb h
  rw [← toNat_nibble_eq_zero_iff] at hb
  rw [exec_drw x y n hb] at h
  cases h
  refine ⟨_, exec_drw x y n hb, ?_⟩
  rw [State.reg_drawSprite_ne _ _ _ _ hx, State.reg_drawSprite_ne _ _ _ _ hy]
  exact s.advance.fb_drawSprite_drawSprite _ _ (s.mem.length_bytesFrom_nibble_le s.indexBase n)

end Sys2Proof.Machine

/-! SUPPORT. Keypad and timers (45_keypad_timers.md): the key skips read one keypad cell, the timer instructions copy one byte, and
`Fx0A` blocks the core until a press edge. -/

namespace Sys2Proof.Machine

/-! ### Key skips (45_keypad_timers.md R150, R151, decision D17) -/

/-- The key a byte names is the keypad cell at the byte's own value: nothing is lost with the high nibble. -/
theorem State.key_setWidth (s : State) {b : Byte} (hb : b.toNat < 16) : s.key (b.setWidth 4) = s.keypad[b.toNat] := by
  have hnibble : (b.setWidth 4).toNat = b.toNat := (BitVec.toNat_setWidth 4 b).trans (Nat.mod_eq_of_lt hb)
  simp only [State.key, hnibble]

theorem encode_skp (x : RegIdx) : encode (.skp x) = 0xE09E#16 ||| (x.setWidth 16 <<< 8) :=
  encodeXKK_eq_or 0xE#4 x 0x9E#8

theorem encode_sknp (x : RegIdx) : encode (.sknp x) = 0xE0A1#16 ||| (x.setWidth 16 <<< 8) :=
  encodeXKK_eq_or 0xE#4 x 0xA1#8

/-- Settles O41: for a key index `exec_skp` and `exec_sknp` name the skip, whose condition is the key's cell; above 15 they name the
halted state. -/
theorem keySkipsSampleTheKeypad : Obligations.KeySkipsSampleTheKeypad := by
  refine ⟨fun x s h => ⟨?skp, ?sknp⟩, fun x s h => ⟨?skpHalts, ?sknpHalts⟩⟩
  case skp =>
    refine ⟨_, exec_skp x (Nat.le_of_lt_succ h), s.sameButPc_skipIf_advance _, ?_⟩
    rw [s.key_setWidth h]
    exact ⟨s.skipIf_advance_pc_of_true, s.skipIf_advance_pc_of_false⟩
  case sknp =>
    refine ⟨_, exec_sknp x (Nat.le_of_lt_succ h), s.sameButPc_skipIf_advance _, ?_⟩
    rw [s.key_setWidth h]
    exact ⟨fun hup => s.skipIf_advance_pc_of_true (congrArg not hup),
      fun hdown => s.skipIf_advance_pc_of_false (congrArg not hdown)⟩
  case skpHalts =>
    rw [exec_skp_out x h, encode_skp]
    rfl
  case sknpHalts =>
    rw [exec_sknp_out x h, encode_sknp]
    rfl

/-! ### Timers (45_keypad_timers.md R152, R154, R155) -/

theorem State.toneActive_iff (s : State) : s.toneActive = true ↔ s.st ≠ 0#8 := decide_eq_true_iff

/-- Settles O42: each of the three is one write after the advance, to a register, to `DT` or to `ST`, of a value read before it. -/
theorem timerInstructionsCopyTheValue : Obligations.TimerInstructionsCopyTheValue := by
  refine fun x s => ⟨⟨_, rfl, State.reg_setReg_same _ x s.dt, s.frame_setReg_advance x s.dt⟩, ⟨_, rfl, ?delay⟩,
    ⟨_, rfl, rfl, State.toneActive_iff _, ?sound⟩⟩
  case delay =>
    exact ⟨rfl, rfl, rfl, fun _ => rfl, fun _ => rfl, rfl, ⟨rfl, rfl⟩, rfl, ⟨rfl, rfl, rfl⟩, ⟨rfl, rfl, rfl⟩⟩
  case sound =>
    exact ⟨rfl, rfl, fun _ => rfl, fun _ => rfl, rfl, ⟨rfl, rfl⟩, rfl, ⟨rfl, rfl, rfl⟩, ⟨rfl, rfl, rfl⟩⟩

/-! ### The key wait (45_keypad_timers.md R153, decisions D12, D16) -/

theorem exec_ldVxK (x : RegIdx) (s : State) : exec (.ldVxK x) s = .next (s.advance.beginWait x) := rfl

theorem State.result_of_blocked {s : State} (h : s.status = .blocked) : s.result = .blocked := by
  rw [State.result, h]

/-- Settles O43: the advance writes `pc`, and the wait that begins after it writes `wait` and `status` alone. -/
theorem waitForKeyBlocks : Obligations.WaitForKeyBlocks := fun x s =>
  ⟨_, exec_ldVxK x s, rfl, rfl, State.result_of_blocked rfl, rfl, rfl, fun _ => rfl, fun _ => rfl, rfl, ⟨rfl, rfl⟩, ⟨rfl, rfl⟩,
    rfl, ⟨rfl, rfl, rfl⟩⟩

/-- STEP in BLOCKED changes nothing (40_step_cycle.md R90). -/
theorem step_of_blocked {s : State} (h : s.status = .blocked) : step s = .next s :=
  stepOutsideRunningChangesNothing s (by simp [h])

/-- STEP(rand) in BLOCKED changes nothing, whatever its byte: no instruction runs that could draw it. -/
theorem applyEvent_step_of_blocked {s : State} (h : s.status = .blocked) (r : Byte) : applyEvent (.step r) s = .next s := by
  have hnot : ¬ s.RunsRandom := by
    rintro ⟨hrun, -⟩
    rw [h] at hrun
    cases hrun
  rw [applyEvent_step_eq_step hnot, step_of_blocked h]

/-- Events that each leave a state as it is leave it so one after another. -/
theorem applyEvents_of_fixed {s : State} {es : List Event} (h : ∀ e ∈ es, applyEvent e s = .next s) :
    applyEvents es s = .next s := by
  induction es with
  | nil => rfl
  | cons e es ih =>
    obtain ⟨he, hes⟩ := List.forall_mem_cons.1 h
    simp only [applyEvents, he, ih hes]

/-- A press edge while a key wait stands ends it, with the key's index in the waiting register (60_exceptions.md R173). -/
theorem State.keyEvent_of_wait {s : State} {x : RegIdx} {k : Nibble} (hw : s.wait = some x) (hk : s.key k = false) :
    s.keyEvent k true = (s.setKeyCell k true).endWait.setReg x (k.setWidth 8) := by
  obtain ⟨y, -, -, hy, he⟩ | ⟨hnone, -⟩ := s.keyEvent_cases k true
  · cases hw.symm.trans hy
    exact he
  · simp [hw, hk] at hnone

/-- Settles O47: the state after `Fx0A` is BLOCKED, so every STEP leaves it as it is, and it waits with `x`, so the press edge is
`keyEvent_of_wait`. -/
theorem keyWaitEndsWithTheKeyIndex : Obligations.KeyWaitEndsWithTheKeyIndex := by
  intro x k s t h hk
  cases h
  have hblocked : (s.advance.beginWait x).status = .blocked := rfl
  have hsafe : (s.advance.beginWait x).Safe := fun _ => nofun
  have hpress := (applyEvent_setKey k true hsafe).trans (congrArg _ (State.keyEvent_of_wait rfl hk))
  refine ⟨hblocked, State.result_of_blocked hblocked, step_of_blocked hblocked, fun es hes => ?steps,
    ⟨_, hpress, ?index, rfl, rfl, rfl, rfl⟩⟩
  case steps =>
    refine applyEvents_of_fixed fun e he => ?_
    obtain ⟨r, rfl⟩ := hes e he
    exact applyEvent_step_of_blocked hblocked r
  case index =>
    rw [State.reg_setReg_same]
    exact BitVec.toNat_setWidth_of_le (by decide)

end Sys2Proof.Machine

/-! SUPPORT. Exceptions and events (60_exceptions.md): every event keeps the invariant, each fatal condition belongs to one check of
one instruction, BLOCKED lasts until a press, HALTED until a RESET, and every STEP has a next state. -/

namespace Sys2Proof.Machine

/-! ### Events one after another (60_exceptions.md R170) -/

/-- What each event of a list keeps, the whole list keeps. -/
theorem applyEvents_preserves {P : State → Prop} {es : List Event} {s t : State}
    (hkeep : ∀ e ∈ es, ∀ u v, P u → applyEvent e u = .next v → P v) (hs : P s) (h : applyEvents es s = .next t) : P t := by
  induction es generalizing s with
  | nil => cases h; exact hs
  | cons e es ih =>
    obtain ⟨hhead, htail⟩ := List.forall_mem_cons.1 hkeep
    unfold applyEvents at h
    split at h
    next u hu => exact ih htail (hhead s u hs hu) h
    all_goals cases h

theorem State.safe_or_halted (s : State) : s.Safe ∨ ∃ e, s.status = .halted e := by
  by_cases hs : s.Safe
  · exact .inl hs
  · exact .inr (by simpa [State.Safe] using hs)

theorem State.safe_of_blocked {s : State} (h : s.status = .blocked) : s.Safe := fun e he => by simp [h] at he

/-! ### The invariant (60_exceptions.md R170; 10_state.md R30, R35) -/

section Invariant

variable {s t : State}

/-- The invariant speaks of memory, the status, the key wait, the stack and `pc` alone. -/
theorem State.Inv.congr (hs : s.Inv) (hmem : t.mem = s.mem) (hstatus : t.status = s.status) (hwait : t.wait = s.wait)
    (hstack : SameStack s t) (hpc : t.pc = s.pc) : t.Inv where
  mem_canonical := hmem ▸ hs.mem_canonical
  blocked_iff_wait := by rw [hstatus, hwait]; exact hs.blocked_iff_wait
  live_returns j hj hlt := by
    obtain ⟨hslots, hsp⟩ := hstack
    simp only [hslots]
    exact hs.live_returns j hj (hsp ▸ hlt)
  pc_bound := hpc ▸ hs.pc_bound
  halted_pc e he := by rw [hpc]; exact hs.halted_pc e (hstatus ▸ he)

theorem State.Inv.withRandom (hs : s.Inv) (l : List Byte) (k : Nat) : (s.withRandom l k).Inv :=
  hs.congr rfl rfl rfl ⟨rfl, rfl⟩ rfl

/-- RESET leaves everything but memory, the profile and the random source as in `State.reset`. -/
theorem State.inv_afterReset {rom : List Byte} (q : Quirks) (font : Vector Byte 80) (s : State) (hrom : rom.length ≤ 3584) :
    (s.afterReset rom q font).Inv :=
  { invariantHoldsAtReset with mem_canonical := wf_afterReset q font s hrom }

/-- The end of a key wait leads from BLOCKED to RUNNING and clears `wait` with it (60_exceptions.md R173). -/
theorem State.Inv.endWait (hs : s.Inv) : s.endWait.Inv where
  mem_canonical := hs.mem_canonical
  blocked_iff_wait := by simp
  live_returns := hs.live_returns
  pc_bound := hs.pc_bound
  halted_pc _ he := nomatch he

theorem State.Inv.setKeyCell (hs : s.Inv) (k : Nibble) (p : Bool) : (s.setKeyCell k p).Inv :=
  hs.congr rfl rfl rfl ⟨rfl, rfl⟩ rfl

theorem State.Inv.keyEvent (hs : s.Inv) (k : Nibble) (p : Bool) : (s.keyEvent k p).Inv := by
  have hcell := hs.setKeyCell k p
  obtain ⟨x, -, -, -, he⟩ | ⟨-, he⟩ := s.keyEvent_cases k p
  · rw [he]
    exact hcell.endWait.congr rfl rfl rfl ⟨rfl, rfl⟩ rfl
  · rwa [he]

/-- Every event keeps the invariant: RESET establishes it, STEP keeps it by `everyStepKeepsTheInvariant`, TICK writes nothing
that it speaks of, and SET_KEY ends a wait or writes a keypad cell. -/
theorem State.Inv.of_applyEvent {e : Event} (hs : s.Inv) (h : applyEvent e s = .next t) : t.Inv := by
  cases e with
  | reset rom q font =>
    obtain ⟨hrom, rfl⟩ := applyEvent_reset_next h
    exact s.inv_afterReset q font hrom
  | step r =>
    obtain ⟨u, hstep, rfl⟩ := applyEvent_step_next h
    have hu : u.Inv := everyStepKeepsTheInvariant _ u (hs.withRandom (r :: s.randIn) s.draws) hstep
    exact hu.withRandom s.randIn u.draws
  | tick =>
    obtain hsafe | ⟨err, hhalted⟩ := s.safe_or_halted
    · rw [applyEvent_tick hsafe] at h
      cases h
      exact hs.congr rfl rfl rfl ⟨rfl, rfl⟩ rfl
    · rw [applyEvent_tick_halted hhalted] at h
      cases h
      exact hs
  | setKey k p =>
    obtain hsafe | ⟨err, hhalted⟩ := s.safe_or_halted
    · rw [applyEvent_setKey k p hsafe] at h
      cases h
      exact hs.keyEvent k p
    · rw [applyEvent_setKey_halted k p hhalted] at h
      cases h
      exact hs

end Invariant

/-- Settles O57: `State.Inv.of_applyEvent`, event by event. -/
theorem everyInterleavingKeepsTheInvariant : Obligations.EveryInterleavingKeepsTheInvariant := fun _ _ _ hs h =>
  applyEvents_preserves (fun _ _ _ _ hu hv => hu.of_applyEvent hv) hs h

/-! ### Fatal conditions (60_exceptions.md R160 to R167) -/

/-- Where an instruction enters a fatal condition under a check and keeps the status otherwise, HALTED comes from that check. -/
theorem kind_and_check_of_exec_halted {i : Instr} {s t : State} {e : ErrorRecord} {check : Prop} {k : FatalKind}
    {o : Option Word} (hrun : s.status = .running) (h : exec i s = .next t) (he : t.status = .halted e)
    (hraise : check → exec i s = .next (s.raiseFatal k o))
    (hgo : ¬ check → ∃ u, exec i s = .next u ∧ u.status = s.status) : e.kind = k ∧ check := by
  by_cases hc : check
  · rw [hraise hc] at h
    cases h
    cases he
    exact ⟨rfl, hc⟩
  · obtain ⟨u, hu, hstatus⟩ := hgo hc
    rw [hu] at h
    cases h
    simp [hstatus, hrun] at he

/-- Settles O12: the halted state is `exec_halted_eq`, and its cause is the one check of the instruction, where it has one. -/
theorem fatalConditionsByInstruction : Obligations.FatalConditionsByInstruction := by
  intro i s t e hrun h he
  have hrecord : t = { s with status := .halted e } ∧ e.pc = s.pc ∧ e.opcode = some (encode i) := by
    obtain ⟨k, rfl⟩ := exec_halted_eq h hrun he
    cases he
    exact ⟨rfl, rfl, rfl⟩
  obtain ⟨ht, hpc, hopcode⟩ := hrecord
  refine ⟨ht, hpc, hopcode, ?_⟩
  cases i with
  | ret => exact kind_and_check_of_exec_halted hrun h he exec_ret_empty fun hsp => ⟨_, exec_ret hsp, rfl⟩
  | call nnn =>
    exact kind_and_check_of_exec_halted hrun h he (fun hfull => exec_call_full nnn (by omega))
      fun hroom => ⟨_, exec_call nnn (by omega), rfl⟩
  | drw x y n =>
    have hcheck : 4095 < s.i.toNat + n.toNat - 1 ∧ n ≠ 0#4 ↔ ¬ (n.toNat = 0 ∨ s.i.toNat + n.toNat - 1 ≤ 4095) := by
      rw [toNat_nibble_eq_zero_iff, not_or, not_le, and_comm]
    exact kind_and_check_of_exec_halted hrun h he (fun hout => exec_drw_out x y n (hcheck.1 hout))
      fun hin => ⟨_, exec_drw x y n (not_not.1 fun hout => hin (hcheck.2 hout)), rfl⟩
  | ldB x =>
    exact kind_and_check_of_exec_halted hrun h he (exec_ldB_out x) fun hin => ⟨_, exec_ldB x (not_lt.1 hin), rfl⟩
  | storeRegs x =>
    exact kind_and_check_of_exec_halted hrun h he (exec_storeRegs_out x)
      fun hin => ⟨_, exec_storeRegs x (not_lt.1 hin), State.advanceIndex_status _ x⟩
  | loadRegs x =>
    exact kind_and_check_of_exec_halted hrun h he (exec_loadRegs_out x)
      fun hin => ⟨_, exec_loadRegs x (not_lt.1 hin), State.advanceIndex_status _ x⟩
  | skp x =>
    exact kind_and_check_of_exec_halted hrun h he (exec_skp_out x)
      fun hin => ⟨_, exec_skp x (not_lt.1 hin), State.skipIf_status _ _⟩
  | sknp x =>
    exact kind_and_check_of_exec_halted hrun h he (exec_sknp_out x)
      fun hin => ⟨_, exec_sknp x (not_lt.1 hin), State.skipIf_status _ _⟩
  | _ => cases h; simp [hrun] at he

/-- Settles O8: the model enters the condition from the state before the STEP. -/
theorem stepOnUnknownOpcodeHalts : Obligations.StepOnUnknownOpcodeHalts := fun _ _ hrun hf hd =>
  step_of_decode_none hrun hf hd

/-! ### Next states (60_exceptions.md R167, log entry 1) -/

/-- Each of the 34 meanings answers a next state. -/
theorem exec_next (i : Instr) (s : State) : ∃ t, exec i s = .next t := by
  cases i <;> exact ⟨_, rfl⟩

/-- Settles O13: in each case of STEP there is a next state, the one of an instruction by `exec_next`. -/
theorem everyStepHasANextState : Obligations.EveryStepHasANextState := by
  refine ⟨fun s => ?_, exec_next⟩
  by_cases hrun : s.status = .running
  case neg => exact ⟨s, stepOutsideRunningChangesNothing s hrun⟩
  cases hf : s.fetch with
  | none => exact ⟨_, step_of_fetch_none hrun hf⟩
  | some w =>
    cases hd : decodeWord w with
    | none => exact ⟨_, step_of_decode_none hrun hf hd⟩
    | some i =>
      rw [step_of_decode hrun hf hd]
      exact exec_next i s

/-! ### TICK (60_exceptions.md R171, decisions D16, D31) -/

/-- Settles O44: outside HALTED the two timers count down, and they are all that is written. -/
theorem tickCountsBothTimersDown : Obligations.TickCountsBothTimersDown :=
  ⟨fun s hs => ⟨_, applyEvent_tick hs, toNat_countDown s.dt, toNat_countDown s.st, rfl, fun _ => rfl, fun _ => rfl, rfl,
    ⟨rfl, rfl⟩, rfl, ⟨rfl, rfl, rfl⟩, ⟨rfl, rfl, rfl⟩⟩, fun _ _ => applyEvent_tick_halted⟩

/-! ### BLOCKED (60_exceptions.md R173, R179) -/

/-- A BLOCKED state with the wait, the registers, `pc` and memory of another. -/
def BlockedAs (s t : State) : Prop :=
  t.status = .blocked ∧ t.wait = s.wait ∧ SameRegs s t ∧ t.pc = s.pc ∧ SameMemory s t

/-- A release writes its keypad cell alone (60_exceptions.md R172). -/
theorem State.keyEvent_release (s : State) (k : Nibble) : s.keyEvent k false = s.setKeyCell k false := by
  obtain ⟨x, hpress, -⟩ | ⟨-, he⟩ := s.keyEvent_cases k false
  · cases hpress
  · exact he

/-- An event that presses no key: STEP does nothing, TICK writes the timers, and a release its keypad cell. -/
theorem BlockedAs.of_applyEvent {s u v : State} {e : Event} (hu : BlockedAs s u)
    (he : (∃ r, e = .step r) ∨ e = .tick ∨ ∃ k, e = .setKey k false) (h : applyEvent e u = .next v) : BlockedAs s v := by
  have hblocked : u.status = .blocked := hu.1
  have hsafe := State.safe_of_blocked hblocked
  obtain ⟨r, rfl⟩ | rfl | ⟨k, rfl⟩ := he
  · rw [applyEvent_step_of_blocked hblocked r] at h
    cases h
    exact hu
  · rw [applyEvent_tick hsafe] at h
    cases h
    exact hu
  · rw [applyEvent_setKey k false hsafe, u.keyEvent_release k] at h
    cases h
    exact hu

/-- Settles O46: a BLOCKED state is blocked as itself, and every event of the list keeps that. -/
theorem blockedUntilAPressEvent : Obligations.BlockedUntilAPressEvent := fun _ s _ hblocked hes h =>
  applyEvents_preserves (P := BlockedAs s) (fun e he _ _ hu hv => hu.of_applyEvent (hes e he) hv)
    ⟨hblocked, rfl, fun _ => rfl, rfl, fun _ => rfl⟩ h

/-! ### HALTED (60_exceptions.md R168, decision D16) -/

/-- An event other than RESET changes nothing in HALTED. -/
theorem applyEvent_of_halted {s : State} {err : ErrorRecord} {e : Event} (hs : s.status = .halted err)
    (he : ∀ rom q font, e ≠ .reset rom q font) : applyEvent e s = .next s := by
  have hnot : s.status ≠ .running := by simp [hs]
  cases e with
  | reset rom q font => exact absurd rfl (he rom q font)
  | step r =>
    rw [applyEvent_step_eq_step (fun hruns => hnot hruns.1) r]
    exact stepOutsideRunningChangesNothing s hnot
  | tick => exact applyEvent_tick_halted hs
  | setKey k p => exact applyEvent_setKey_halted k p hs

/-- Settles O48: `applyEvent_of_halted`, event by event. -/
theorem haltedIsAbsorbing : Obligations.HaltedIsAbsorbing := fun _ _ _ hs hes =>
  applyEvents_of_fixed fun ev hev => applyEvent_of_halted hs (hes ev hev)

end Sys2Proof.Machine

/-! SUPPORT. Reset and hazards (70_reset_and_hazards.md): each quirk parameter matters only where R198 names it, and RESET refuses
an oversized image (R191). With them: the decoder on written words, return and call, `Fx33`, and SET_KEY. -/

namespace Sys2Proof.Machine

/-! ### The quirk profile (70_reset_and_hazards.md R198) -/

/-- The state under another quirk profile. -/
def State.withQuirks (s : State) (q : Quirks) : State := { s with quirks := q }

section WithQuirks

variable {s : State} {q : Quirks}

theorem State.skipIf_withQuirks (c : Bool) : (s.withQuirks q).skipIf c = (s.skipIf c).withQuirks q := by
  cases c <;> rfl

theorem State.shiftOperand_withQuirks {x y : RegIdx} (h : x ≠ y → q.shiftSource = s.quirks.shiftSource) :
    (s.withQuirks q).shiftOperand x y = s.shiftOperand x y := by
  by_cases hxy : x = y
  · rw [hxy, State.shiftOperand_self, State.shiftOperand_self]
    rfl
  · unfold State.shiftOperand
    rw [show (s.withQuirks q).quirks.shiftSource = s.quirks.shiftSource from h hxy]
    rfl

theorem State.writeResultAndFlag_withQuirks {x : RegIdx} (h : x = vf → q.vfOrder = s.quirks.vfOrder) (b : Byte) (f : Bool) :
    (s.withQuirks q).writeResultAndFlag x b f = (s.writeResultAndFlag x b f).withQuirks q := by
  by_cases hx : x = vf
  · unfold State.writeResultAndFlag
    rw [show (s.withQuirks q).quirks.vfOrder = s.quirks.vfOrder from h hx]
    cases s.quirks.vfOrder <;> rfl
  · rw [State.writeResultAndFlag_of_ne hx, State.writeResultAndFlag_of_ne hx]
    rfl

/-- A sprite that has no set pixel beyond an edge is drawn the same under both edge policies (44_display.md R141). -/
theorem State.drawSprite_withQuirks {x y : RegIdx} {n : Nibble}
    (h : NamesDrawEdge s (.drw x y n) → q.drawEdge = s.quirks.drawEdge) :
    (s.withQuirks q).drawSprite (s.reg x) (s.reg y) (s.mem.bytesFrom s.indexBase n.toNat) =
      (s.drawSprite (s.reg x) (s.reg y) (s.mem.bytesFrom s.indexBase n.toNat)).withQuirks q := by
  have hrows : xorRows q.drawEdge (s.reg x).toNat (s.reg y).toNat (s.mem.bytesFrom s.indexBase n.toNat) (s.fb, false) =
      xorRows s.quirks.drawEdge (s.reg x).toNat (s.reg y).toNat (s.mem.bytesFrom s.indexBase n.toNat) (s.fb, false) := by
    by_cases hedge : NamesDrawEdge s (.drw x y n)
    · rw [h hedge]
    · refine xorRows_edge _ _ _ _ _ _ fun row col hr hc hset => ?_
      rw [Memory.getElem_bytesFrom] at hset
      rw [Memory.length_bytesFrom] at hr
      by_contra hout
      exact hedge ⟨row, col, hr, hc, hset, by omega⟩
  unfold State.drawSprite
  simp only [State.withQuirks, hrows]
  rfl

theorem State.dropRandom_withQuirks : (s.withQuirks q).dropRandom = s.dropRandom.withQuirks q := by
  unfold State.dropRandom
  rw [show (s.withQuirks q).randIn = s.randIn from rfl]
  cases s.randIn <;> rfl

/-- A check that does not read the profile: it fails or passes alike, and its effect takes the same value. -/
theorem State.orRaise_map_withQuirks {α : Type} (k : FatalKind) (i : Instr) (check : Option α) {f g : α → State}
    (h : ∀ a, g a = (f a).withQuirks q) :
    (s.withQuirks q).orRaise k i (check.map g) = (s.orRaise k i (check.map f)).withQuirks q := by
  cases check with
  | none => rfl
  | some a => exact h a

/-- An instruction other than a block transfer does the same under a profile that agrees on what is named for it. -/
theorem exec_withQuirks {i : Instr} (hi : ¬ NamesIndexAdvance i)
    (hshift : NamesShiftSource i → q.shiftSource = s.quirks.shiftSource)
    (hedge : NamesDrawEdge s i → q.drawEdge = s.quirks.drawEdge) (horder : NamesVfOrder i → q.vfOrder = s.quirks.vfOrder) :
    ∃ t, exec i s = .next t ∧ exec i (s.withQuirks q) = .next (t.withQuirks q) := by
  cases i with
  | storeRegs | loadRegs => exact absurd trivial hi
  | cls | jp | jpV0 | ldImm | addImm | ldReg | orReg | andReg | xorReg | ldI | addI | ldF | ldVxDT | ldVxK | ldDTVx | ldSTVx =>
    exact ⟨_, rfl, rfl⟩
  | rnd x kk =>
    exact ⟨_, rfl, congrArg (fun u => Host.Outcome.next (State.setReg u x _)) (State.dropRandom_withQuirks (s := s.advance))⟩
  | seImm | sneImm | seReg | sneReg => exact ⟨_, rfl, congrArg _ (State.skipIf_withQuirks (s := s.advance) _)⟩
  | addReg | subReg | subn => exact ⟨_, rfl, congrArg _ (State.writeResultAndFlag_withQuirks (s := s.advance) horder _ _)⟩
  | shr x y | shl x y =>
    refine ⟨_, rfl, ?_⟩
    simp only [exec, execShr, execShl, State.shiftOperand_withQuirks hshift]
    exact congrArg _ (State.writeResultAndFlag_withQuirks (s := s.advance) horder _ _)
  | skp | sknp =>
    exact ⟨_, rfl, congrArg _ (State.orRaise_map_withQuirks _ _ _ fun _ => State.skipIf_withQuirks (s := s.advance) _)⟩
  | ret =>
    by_cases hsp : s.sp.val = 0
    · exact ⟨_, exec_ret_empty hsp, exec_ret_empty hsp⟩
    · exact ⟨_, exec_ret hsp, exec_ret hsp⟩
  | call nnn =>
    by_cases hsp : s.sp.val < 16
    · exact ⟨_, exec_call nnn hsp, exec_call (s := s.withQuirks q) nnn hsp⟩
    · exact ⟨_, exec_call_full nnn hsp, exec_call_full nnn hsp⟩
  | ldB x =>
    obtain hb | hb := le_or_gt (s.i.toNat + 2) 4095
    · exact ⟨_, exec_ldB x hb, exec_ldB x hb⟩
    · exact ⟨_, exec_ldB_out x hb, exec_ldB_out x hb⟩
  | drw x y n =>
    by_cases hb : n.toNat = 0 ∨ s.i.toNat + n.toNat - 1 ≤ 4095
    · exact ⟨_, exec_drw x y n hb, (exec_drw (s := s.withQuirks q) x y n hb).trans
        (congrArg _ (State.drawSprite_withQuirks (s := s.advance) hedge))⟩
    · exact ⟨_, exec_drw_out x y n hb, exec_drw_out x y n hb⟩

/-- What ends with the advance of `I` differs under another profile in `I` alone, and there only where QUIRK_INDEX_ADVANCE does. -/
theorem exec_withQuirks_of_advanceIndex {i : Instr} {u : State} {x : RegIdx} (h : exec i s = .next (u.advanceIndex x))
    (hq : exec i (s.withQuirks q) = .next ((u.withQuirks q).advanceIndex x)) (hu : u.quirks = s.quirks) :
    ∃ t a, exec i s = .next t ∧ exec i (s.withQuirks q) = .next { t with quirks := q, i := a } ∧
      (q.indexAdvance = s.quirks.indexAdvance → a = t.i) := by
  refine ⟨_, ((u.withQuirks q).advanceIndex x).i, h, hq.trans (congrArg _ ?_), fun hsame => ?_⟩
  · simp only [State.advanceIndex, State.withQuirks]
    cases q.indexAdvance <;> cases u.quirks.indexAdvance <;> rfl
  · rw [State.advanceIndex_i, State.advanceIndex_i, hu, ← hsame]
    rfl

/-- A block transfer under another profile does the same, but for `I` where the two profiles differ on QUIRK_INDEX_ADVANCE. -/
theorem exec_blockTransfer_withQuirks {i : Instr} (hi : NamesIndexAdvance i) (s : State) (q : Quirks) :
    ∃ t a, exec i s = .next t ∧ exec i (s.withQuirks q) = .next { t with quirks := q, i := a } ∧
      (q.indexAdvance = s.quirks.indexAdvance → a = t.i) := by
  cases i with
  | storeRegs x =>
    obtain hb | hb := le_or_gt (s.i.toNat + x.toNat) 4095
    · exact exec_withQuirks_of_advanceIndex (exec_storeRegs x hb) (exec_storeRegs (s := s.withQuirks q) x hb) rfl
    · exact ⟨_, s.i, exec_storeRegs_out x hb, exec_storeRegs_out x hb, fun _ => rfl⟩
  | loadRegs x =>
    obtain hb | hb := le_or_gt (s.i.toNat + x.toNat) 4095
    · exact exec_withQuirks_of_advanceIndex (exec_loadRegs x hb) (exec_loadRegs (s := s.withQuirks q) x hb) rfl
    · exact ⟨_, s.i, exec_loadRegs_out x hb, exec_loadRegs_out x hb, fun _ => rfl⟩
  | _ => exact hi.elim

end WithQuirks

/-- Settles O53: the block transfers by `exec_blockTransfer_withQuirks`, and every other instruction by `exec_withQuirks`, which
leaves `I` the same. -/
theorem quirksMatterOnlyWhereNamed : Obligations.QuirksMatterOnlyWhereNamed := by
  intro i s q hshift hedge horder
  by_cases hi : NamesIndexAdvance i
  · obtain ⟨t, a, ht, hq, ha⟩ := exec_blockTransfer_withQuirks hi s q
    exact ⟨t, a, ht, hq, fun h => ha (h hi)⟩
  · obtain ⟨t, ht, hq⟩ := exec_withQuirks hi hshift hedge horder
    exact ⟨t, t.i, ht, hq, fun _ => rfl⟩

/-! ### RESET (70_reset_and_hazards.md R191) -/

/-- RESET with an image that does not fit (decision D28). -/
theorem applyEvent_reset_refused {rom : List Byte} (q : Quirks) (font : Vector Byte 80) (s : State) (h : 3584 < rom.length) :
    applyEvent (.reset rom q font) s = .refused .romTooLarge := by
  have hw : romWellFormed rom = false := by simpa [romWellFormed, Config.romMax] using h
  simp [applyEvent, hw]

/-- Settles O51: RESET by the length of its image, STEP because every STEP has a next state, and the other two events always
answer. -/
theorem onlyOversizedImagesAreRefused : Obligations.OnlyOversizedImagesAreRefused := by
  refine fun e s => ⟨?refused, fun hfits => ?answers⟩
  case refused =>
    rintro ⟨rom, q, font, rfl, hlong⟩
    exact applyEvent_reset_refused q font s hlong
  case answers =>
    cases e with
    | reset rom q font => exact ⟨_, applyEvent_reset q font s (hfits rom q font rfl)⟩
    | step r =>
      obtain ⟨hstep, -⟩ := everyStepHasANextState
      obtain ⟨t, ht⟩ := hstep { s with randIn := r :: s.randIn }
      exact ⟨_, applyEvent_step ht⟩
    | tick | setKey => exact ⟨_, rfl⟩

/-! ### Words (30_encoding.md R75) -/

/-- Settles O1: the decoder evaluated on the 26 words. -/
theorem writtenWordsDecode : Obligations.WrittenWordsDecode := by
  unfold Obligations.WrittenWordsDecode
  decide

theorem opField_kkField_of_and_F0FF {w : Word} {op : Nibble} {kk : Byte} (h : w &&& 0xF0FF#16 = encodeXKK op 0#4 kk) :
    opField w = op ∧ kkField w = kk := by
  rw [and_F0FF] at h
  exact ⟨by simpa using congrArg opField h, by simpa using congrArg kkField h⟩

/-- A word with the family and the low byte of an instruction of the format X is that instruction's word. -/
theorem encode_of_and_F0FF {w : Word} {i : Instr} (op : Nibble) (kk : Byte) (h : w &&& 0xF0FF#16 = encodeXKK op 0#4 kk)
    (hi : encode i = encodeXKK op (xField w) kk) : encode i = w := by
  obtain ⟨ho, hk⟩ := opField_kkField_of_and_F0FF h
  exact hi.trans (Laws.encodeXKK_of_family ho hk)

/-- A word with the family of an instruction of the format NNN is that instruction's word. -/
theorem encodeNNN_of_and_F000 {w : Word} (op : Nibble) (h : w &&& 0xF000#16 = ofNibbles op 0#4 0#4 0#4) :
    encodeNNN op (nnnField w) = w :=
  Laws.encodeNNN_of_family ((Laws.and_F000_eq_iff w op).1 h)

/-! ### Return and call (41_control_flow.md R100, R102) -/

/-- Settles O14: `exec_ret` names the next state, and `exec_ret_empty` the halted one. -/
theorem returnPopsTheStack : Obligations.ReturnPopsTheStack :=
  ⟨rfl, fun _ hsp => ⟨_, exec_ret hsp, rfl, rfl, rfl, fun _ => rfl, rfl, ⟨rfl, rfl⟩, fun _ => rfl, rfl, ⟨rfl, rfl, rfl⟩,
    ⟨rfl, rfl, rfl⟩⟩, fun _ hsp => ⟨_, exec_ret_empty hsp, rfl⟩⟩

/-- Settles O15: below 16 `exec_call` names the next state, whose slot `sp` alone was written; at 16 `exec_call_full` names the
halted one. -/
theorem callPushesTheNextAddress : Obligations.CallPushesTheNextAddress := by
  refine ⟨fun w hw => decodeWord_of_encode_eq (encodeNNN_of_and_F000 0x2#4 hw), fun nnn s hsp => ⟨_, exec_call nnn hsp, rfl,
    Vector.getElem_set_self hsp, toNat_addrOperand nnn, fun j hj hne => Vector.getElem_set_ne hsp hj hne.symm, fun _ => rfl, rfl,
    ⟨rfl, rfl⟩, fun _ => rfl, rfl, ⟨rfl, rfl, rfl⟩, ⟨rfl, rfl, rfl⟩⟩, fun nnn s hfull => ?_⟩
  exact ⟨_, exec_call_full nnn (by omega), rfl⟩

/-! ### `Fx33` (43_index_memory.md R133) -/

/-- The stored digits are read back at the three addresses from their base. -/
theorem Memory.toNat_byteAt_putFrom_bcdDigits {m : Memory} {a : Nat} (b : Byte) (hm : m.wf = true) (ha : a + 2 ≤ 4095) :
    ((m.putFrom a (bcdDigits b)).byteAt a).toNat = b.toNat / 100 ∧
      ((m.putFrom a (bcdDigits b)).byteAt (a + 1)).toNat = b.toNat / 10 % 10 ∧
      ((m.putFrom a (bcdDigits b)).byteAt (a + 2)).toNat = b.toNat % 10 := by
  have hend : a + (bcdDigits b).length ≤ 4096 := Nat.succ_le_succ ha
  have hread (j : Nat) (hj : j < 3) : ((m.putFrom a (bcdDigits b)).byteAt (a + j)).toNat = ((bcdDigits b)[j]'hj).toNat :=
    congrArg BitVec.toNat (Memory.byteAt_putFrom (bcdDigits b) hm hend hj)
  have hb := b.isLt
  exact ⟨(hread 0 (by decide)).trans (Nat.mod_eq_of_lt (by omega)), (hread 1 (by decide)).trans (Nat.mod_eq_of_lt (by omega)),
    (hread 2 (by decide)).trans (Nat.mod_eq_of_lt (by omega))⟩

/-- Settles O32: inside the bound `exec_ldB` names the next state, memory with the digits stored over it; past it `exec_ldB_out`
names the halted one. -/
theorem storeBcdWritesThreeDigits : Obligations.StoreBcdWritesThreeDigits := by
  refine ⟨fun w hw => decodeWord_of_encode_eq (encode_of_and_F0FF 0xF#4 0x33#8 hw rfl), fun x s hm hb => ?stores,
    fun x s hb => ⟨_, exec_ldB_out x hb, rfl⟩⟩
  case stores =>
    obtain ⟨hhundreds, htens, hunits⟩ := Memory.toNat_byteAt_putFrom_bcdDigits (s.reg x) hm hb
    have hend : s.indexBase + (bcdDigits (s.reg x)).length ≤ 4096 := Nat.succ_le_succ hb
    exact ⟨_, exec_ldB x hb, hhundreds, htens, hunits, fun a ha => Memory.byteAt_putFrom_outside _ hm hend ha, rfl, rfl,
      fun _ => rfl, ⟨rfl, rfl⟩, ⟨rfl, rfl⟩, rfl, ⟨rfl, rfl, rfl⟩, ⟨rfl, rfl, rfl⟩⟩

/-! ### SET_KEY (60_exceptions.md R172, R173) -/

theorem State.key_setKeyCell_same (s : State) (k : Nibble) (p : Bool) : (s.setKeyCell k p).key k = p := by
  rw [State.key_setKeyCell, if_pos rfl]

theorem State.key_setKeyCell_ne (s : State) {k j : Nibble} (h : j ≠ k) (p : Bool) : (s.setKeyCell k p).key j = s.key j := by
  rw [State.key_setKeyCell, if_neg h]

theorem toNat_keyIndex (k : Nibble) : (k.setWidth 8 : Byte).toNat = k.toNat := BitVec.toNat_setWidth_of_le (by decide)

/-- Settles O45: outside HALTED the event ends the wait or writes its keypad cell alone (`State.keyEvent_cases`), and the conditions
of the two clauses exclude each other. -/
theorem setKeyResolvesTheWaitOnAPressEdge : Obligations.SetKeyResolvesTheWaitOnAPressEdge := by
  refine ⟨fun k p s hs => ?_, fun k p s e he => applyEvent_setKey_halted k p he⟩
  rw [applyEvent_setKey k p hs]
  obtain ⟨x, hp, hk, hw, he⟩ | ⟨hnone, he⟩ := s.keyEvent_cases k p
  · refine ⟨_, congrArg _ he, s.key_setKeyCell_same k p, fun j hj => s.key_setKeyCell_ne hj p, fun y _ _ hy => ?ends,
      fun hnone => absurd hnone (by simp [hp, hk, hw]), rfl, fun _ => rfl, rfl, ⟨rfl, rfl⟩, ⟨rfl, rfl⟩, rfl,
      ⟨rfl, rfl, rfl⟩⟩
    case ends =>
      cases hw.symm.trans hy
      exact ⟨by rw [State.reg_setReg_same, toNat_keyIndex], fun _ hr => State.reg_setReg_ne _ hr _, rfl, rfl⟩
  · refine ⟨_, congrArg _ he, s.key_setKeyCell_same k p, fun j hj => s.key_setKeyCell_ne hj p,
      fun x hp hk hw => absurd hnone (by simp [hp, hk, hw]), fun _ => ⟨fun _ => rfl, rfl, rfl⟩, rfl, fun _ => rfl, rfl,
      ⟨rfl, rfl⟩, ⟨rfl, rfl⟩, rfl, ⟨rfl, rfl, rfl⟩⟩

end Sys2Proof.Machine
